-- ==== Sys2Proof/Word.lean ====
section
/-! DEFINITION. The two widths of the engine (00_scope R15): a 16-bit word and an 8-bit byte, both unsigned. -/

namespace Sys2Proof

/-- A 16-bit value: a command word (R70), a response (R73), the CRC register (R21). -/
abbrev Word := BitVec 16

/-- An 8-bit value: a data byte, the block number (R22), a count or an index (R26, R29). -/
abbrev Byte := BitVec 8

end Sys2Proof
end

