-- ==== Sys2Proof/Syntax.lean ====
section
/-! DEFINITION. The commands as syntax: one constructor per row of spec/opcode_table.json (30_encoding R75), their
mnemonics, the two formats (R70), and a line of the spec's assembler notation (R78). -/

namespace Sys2Proof

/-- The sixteen commands (R75). A format I command carries its 8-bit unsigned operand (R74); a format Z command
carries none. -/
inductive Instr where
  /-- `NOP` (R160). -/
  | nop
  /-- `STAT.RD` (R161). -/
  | statRd
  /-- `FLT.RD` (R162). -/
  | fltRd
  /-- `CRC.CLR` (R105). -/
  | crcClr
  /-- `CRC.BYTE imm8`, the data byte to fold (R106). -/
  | crcByte (imm8 : Byte)
  /-- `CRC.RD` (R107). -/
  | crcRd
  /-- `BLK.SET imm8`, the new block number (R121). -/
  | blkSet (imm8 : Byte)
  /-- `BLK.INC` (R122). -/
  | blkInc
  /-- `BLK.RD` (R123). -/
  | blkRd
  /-- `PAY.CLR` (R133). -/
  | payClr
  /-- `PAY.PUSH imm8`, the chunk byte to store (R134). -/
  | payPush (imm8 : Byte)
  /-- `FRM.BUILD` (R135). -/
  | frmBuild
  /-- `FRM.RD` (R137). -/
  | frmRd
  /-- `FRM.REWIND` (R138). -/
  | frmRewind
  /-- `FRM.PEEK idx8`, the frame index (R139). -/
  | frmPeek (idx8 : Byte)
  /-- `FRM.POS` (R140). -/
  | frmPos
  deriving DecidableEq, Repr

/-- The mnemonics of R75, without an operand. -/
inductive Mnemonic where
  | nop | statRd | fltRd | crcClr | crcByte | crcRd | blkSet | blkInc | blkRd | payClr | payPush
  | frmBuild | frmRd | frmRewind | frmPeek | frmPos
  deriving DecidableEq, Repr

/-- The two formats of a command word (R70). -/
inductive Format where
  /-- Format Z: `cmd[7:0]` must be 0x00. -/
  | z
  /-- Format I: `cmd[7:0]` is an 8-bit unsigned operand. -/
  | i
  deriving DecidableEq, Repr

/-- The column "format" of R75. -/
def Mnemonic.format : Mnemonic → Format
  | .nop | .statRd | .fltRd | .crcClr | .crcRd | .blkInc | .blkRd | .payClr
  | .frmBuild | .frmRd | .frmRewind | .frmPos => .z
  | .crcByte | .blkSet | .payPush | .frmPeek => .i

/-- One line of the assembler notation (R78), its comment dropped: a mnemonic and, where one is written, the
operand's numeral. A line can be ill-formed; `Line.wellFormed` says when it is not. -/
structure Line where
  mnemonic : Mnemonic
  operand : Option Nat
  deriving DecidableEq, Repr

/-- The line that writes a command down (R78). -/
def Instr.line : Instr → Line
  | .nop => ⟨.nop, none⟩
  | .statRd => ⟨.statRd, none⟩
  | .fltRd => ⟨.fltRd, none⟩
  | .crcClr => ⟨.crcClr, none⟩
  | .crcByte b => ⟨.crcByte, some b.toNat⟩
  | .crcRd => ⟨.crcRd, none⟩
  | .blkSet b => ⟨.blkSet, some b.toNat⟩
  | .blkInc => ⟨.blkInc, none⟩
  | .blkRd => ⟨.blkRd, none⟩
  | .payClr => ⟨.payClr, none⟩
  | .payPush b => ⟨.payPush, some b.toNat⟩
  | .frmBuild => ⟨.frmBuild, none⟩
  | .frmRd => ⟨.frmRd, none⟩
  | .frmRewind => ⟨.frmRewind, none⟩
  | .frmPeek b => ⟨.frmPeek, some b.toNat⟩
  | .frmPos => ⟨.frmPos, none⟩

end Sys2Proof
end

