-- ==== Sys2Proof/Config.lean ====
section
/-! DEFINITION. The constants the spec fixes (00_scope R10, R11; 30_encoding R85) and the one open parameter of the
engine that has a type of its own (R13, R250). -/

namespace Sys2Proof

/-- `POLY` (R10, R100): the generator's low 16 coefficients, bits 12, 5 and 0. -/
def Config.poly : Word := 0x1021#16

/-- `CRC_INIT` (R10, R100): the CRC register at the start of every computation. -/
def Config.crcInit : Word := 0x0000#16

/-- `PAYLOAD_LEN` (R10): payload bytes in every frame, and the size of `PAY` (R50). -/
def Config.payloadLen : Nat := 128

/-- `FRAME_LEN` (R10): bytes in every frame, and the size of `FRAME` (R50). -/
def Config.frameLen : Nat := 133

/-- `SOH` (R10, R85): the start-of-block marker, frame byte 0. -/
def Config.soh : Byte := 0x01#8

/-- `SUB` (R10, R85; 90_conflicts C1): the pad byte of a short chunk. -/
def Config.sub : Byte := 0x1A#8

/-- `BLK_FIRST` (R10): the number of the first data block. -/
def Config.blkFirst : Byte := 0x01#8

/-- `EOT` (R11, R85): the host's end-of-transmission byte; the engine never uses it. -/
def Config.eot : Byte := 0x04#8

/-- `ACK` (R11, R85): the receiver accepted the last packet; the engine never uses it. -/
def Config.ack : Byte := 0x06#8

/-- `NAK` (R11, R85): the receiver rejected the last packet; the engine never uses it. -/
def Config.nak : Byte := 0x15#8

/-- `CRCRDY` (R11, R85): the receiver's ready signal, the letter C; the engine never uses it. -/
def Config.crcRdy : Byte := 0x43#8

/-- `T_CMD(op)` (R13, R250; 93 U10): the time a command takes. The spec gives no value and no rule depends on it;
the model is untimed and reads it nowhere. A free value, log 8. -/
opaque Config.tCmd : Mnemonic → Nat

end Sys2Proof
end

