-- ==== Sys2Proof/WellFormed.lean ====
section
/-! DEFINITION. Which lines of the assembler notation name a command (30_encoding R70, R74, R78), and the same check
on a command. `Instr` types its operand as a byte, so every `Instr` passes (`wellFormed_all`, Laws/Encoding): the
check refuses lines. -/

namespace Sys2Proof

/-- R70, R74: a format Z line has no operand; a format I line has one, an unsigned value of 8 bits. -/
def Line.wellFormed (l : Line) : Bool :=
  match l.mnemonic.format, l.operand with
  | .z, none => true
  | .z, some _ => false
  | .i, none => false
  | .i, some n => decide (n < 256)

/-- A command is well-formed when the line that writes it is. -/
def Instr.wellFormed (i : Instr) : Bool := i.line.wellFormed

end Sys2Proof
end

