-- ==== Sys2Proof/Decode.lean ====
section
/-! DEFINITION. The encoding of the commands (30_encoding R70, R74 to R78; opcode_table.json): the decoder, total on
every 16-bit word and rejecting by name, and the encoder. The decoder reads the match and mask columns of R75, the
encoder its opcode column, so that each is written from the table on its own. -/

namespace Sys2Proof

/-- `cmd[15:8]`, the opcode (R56, R70). -/
def cmdOpcode (w : Word) : Byte := w.extractLsb' 8 8

/-- `cmd[7:0]`, the operand `imm8` (R56, R74). -/
def cmdOperand (w : Word) : Byte := w.extractLsb' 0 8

/-- One row of R75: the command and its match and mask. -/
structure OpcodeRow where
  mnemonic : Mnemonic
  pattern : Word
  mask : Word
  deriving DecidableEq, Repr

/-- The opcode map of R75 and opcode_table.json, in the table's order. -/
def opcodeTable : List OpcodeRow :=
  [ ⟨.nop,       0x0000#16, 0xFFFF#16⟩,
    ⟨.statRd,    0x0100#16, 0xFFFF#16⟩,
    ⟨.fltRd,     0x0200#16, 0xFFFF#16⟩,
    ⟨.crcClr,    0x1000#16, 0xFFFF#16⟩,
    ⟨.crcByte,   0x1100#16, 0xFF00#16⟩,
    ⟨.crcRd,     0x1200#16, 0xFFFF#16⟩,
    ⟨.blkSet,    0x2000#16, 0xFF00#16⟩,
    ⟨.blkInc,    0x2100#16, 0xFFFF#16⟩,
    ⟨.blkRd,     0x2200#16, 0xFFFF#16⟩,
    ⟨.payClr,    0x3000#16, 0xFFFF#16⟩,
    ⟨.payPush,   0x3100#16, 0xFF00#16⟩,
    ⟨.frmBuild,  0x4000#16, 0xFFFF#16⟩,
    ⟨.frmRd,     0x4100#16, 0xFFFF#16⟩,
    ⟨.frmRewind, 0x4200#16, 0xFFFF#16⟩,
    ⟨.frmPeek,   0x4300#16, 0xFF00#16⟩,
    ⟨.frmPos,    0x4400#16, 0xFFFF#16⟩ ]

/-- R75: a decoder tests `(cmd and mask) = match`. -/
def rowMatches (w : Word) (r : OpcodeRow) : Bool := decide (w &&& r.mask = r.pattern)

/-- The command of a mnemonic and the word's low byte; a format Z command has no operand to take (R70, R74). -/
def Mnemonic.command : Mnemonic → Byte → Instr
  | .nop, _ => .nop
  | .statRd, _ => .statRd
  | .fltRd, _ => .fltRd
  | .crcClr, _ => .crcClr
  | .crcByte, b => .crcByte b
  | .crcRd, _ => .crcRd
  | .blkSet, b => .blkSet b
  | .blkInc, _ => .blkInc
  | .blkRd, _ => .blkRd
  | .payClr, _ => .payClr
  | .payPush, b => .payPush b
  | .frmBuild, _ => .frmBuild
  | .frmRd, _ => .frmRd
  | .frmRewind, _ => .frmRewind
  | .frmPeek, b => .frmPeek b
  | .frmPos, _ => .frmPos

/-- Why a word is no command (R77). -/
inductive IllegalWord where
  /-- R77 (a): the opcode is not one of the sixteen. -/
  | unknownOpcode (opcode : Byte)
  /-- R77 (b): the opcode is of format Z and `cmd[7:0]` is not 0x00. -/
  | nonzeroOperand (m : Mnemonic) (operand : Byte)
  deriving DecidableEq, Repr

/-- The reason a word that no row matches is illegal (R77). -/
def illegalReason (w : Word) : IllegalWord :=
  match opcodeTable.find? (fun r => decide (cmdOpcode r.pattern = cmdOpcode w)) with
  | some r => .nonzeroOperand r.mnemonic (cmdOperand w)
  | none => .unknownOpcode (cmdOpcode w)

/-- The decoder (R75, R77): every word is one command or is rejected by name. -/
def decode (w : Word) : Except IllegalWord Instr :=
  match opcodeTable.find? (rowMatches w) with
  | some r => .ok (r.mnemonic.command (cmdOperand w))
  | none => .error (illegalReason w)

/-- The column "opcode" of R75. -/
def Mnemonic.opcode : Mnemonic → Byte
  | .nop => 0x00#8
  | .statRd => 0x01#8
  | .fltRd => 0x02#8
  | .crcClr => 0x10#8
  | .crcByte => 0x11#8
  | .crcRd => 0x12#8
  | .blkSet => 0x20#8
  | .blkInc => 0x21#8
  | .blkRd => 0x22#8
  | .payClr => 0x30#8
  | .payPush => 0x31#8
  | .frmBuild => 0x40#8
  | .frmRd => 0x41#8
  | .frmRewind => 0x42#8
  | .frmPeek => 0x43#8
  | .frmPos => 0x44#8

/-- The column "responds" of R75. -/
def Mnemonic.responds : Mnemonic → Bool
  | .statRd | .fltRd | .crcRd | .blkRd | .frmRd | .frmPeek | .frmPos => true
  | .nop | .crcClr | .crcByte | .blkSet | .blkInc | .payClr | .payPush | .frmBuild | .frmRewind => false

/-- The command of a line (R78): none where the line is ill-formed. -/
def Line.assemble (l : Line) : Option Instr :=
  if l.wellFormed then some (l.mnemonic.command (BitVec.ofNat 8 (l.operand.getD 0))) else none

/-- The word of a line (R78): `(opcode << 8) + operand`, or `opcode << 8` where it has no operand. -/
def Line.word (l : Line) : Word :=
  (l.mnemonic.opcode.setWidth 16 <<< 8) + BitVec.ofNat 16 (l.operand.getD 0)

/-- The encoder (R70, R78): the command word of a command. -/
def encode (i : Instr) : Word := i.line.word

/-- The command the decoder reads from a word whose bits the opcode table numbers; every command is one 16-bit word
(R70), so bits from `nbits` up are 0 and a longer instruction is none. -/
def decodeTableWord (nbits w : Nat) : Option Instr :=
  if nbits ≤ 16 then
    match decode (BitVec.ofNat 16 (w % 2 ^ nbits)) with
    | .ok i => some i
    | .error _ => none
  else none

end Sys2Proof
end

