-- ==== Sys2Proof/Machine/State.lean ====
section
/-! DEFINITION. The state of the machine as plain data: the nine items of the engine (10_state R20) and the two ports
a step reads and writes (30_encoding R71), with their value after reset (R35). -/

namespace Sys2Proof.Machine

/-- A private byte buffer (20_memory R50) as (index, byte) pairs, indices strictly rising. An index that is not
listed holds no value (R232, 93 U9; log 5). -/
abbrev Memory := List Host.Cell

/-- The values of `FAULT` (10_state R27, 60_exceptions R201), typed as the seven-valued enumeration that 93 U12
allows (log 7). -/
inductive FaultCode where
  /-- 0: no fault since reset. -/
  | none
  /-- 1, `ILLEGAL_CMD`: a word that is no command (R202). -/
  | illegalCmd
  /-- 2, `PAY_OVERFLOW`: `PAY.PUSH` with `FILL = 128` (R203). -/
  | payOverflow
  /-- 3, `EMPTY_BUILD`: `FRM.BUILD` with `FILL = 0` (R204). -/
  | emptyBuild
  /-- 4, `FRAME_INVALID`: `FRM.RD` or `FRM.PEEK` with `FVALID = 0` (R208). -/
  | frameInvalid
  /-- 5, `FRAME_UNDERRUN`: `FRM.RD` with `RDPTR = 133` (R209). -/
  | frameUnderrun
  /-- 6, `INDEX_RANGE`: `FRM.PEEK` with `idx8 >= 133` (R210). -/
  | indexRange
  deriving DecidableEq, Repr

/-- The engine's state: exactly the nine items of 10_state R20. -/
structure Engine where
  /-- `CRC`, the CRC shift register (R21). -/
  crc : Word
  /-- `BLK`, the block sequence number (R22). -/
  blk : Byte
  /-- `PAY[0..127]`, the payload buffer (R31). -/
  pay : Memory
  /-- `FILL`, how many bytes of `PAY` hold chunk data, legal 0 to 128 (R26). -/
  fill : Byte
  /-- `FRAME[0..132]`, the frame last built (R32). -/
  frame : Memory
  /-- `FVALID`, the frame-valid flag (R24). -/
  fvalid : Bool
  /-- `RDPTR`, the index of the next frame byte `FRM.RD` returns, legal 0 to 133 (R29). -/
  rdptr : Byte
  /-- `FAULT`, the cause of the first fault since reset (R27). -/
  fault : FaultCode
  /-- `FCMD`, the command word that raised it (R28). -/
  fcmd : Word
  deriving DecidableEq, Repr

/-- One event at the engine's inputs (R71): a command word handed over, or a reset (R230). -/
inductive PortEvent where
  /-- A 16-bit word on `cmd` (R70). -/
  | cmd (w : Word)
  /-- The reset event on `rst` (R230). -/
  | rst
  deriving DecidableEq, Repr

/-- What the next step finds at the inputs. -/
inductive Fetched where
  /-- Nothing has been given: the engine is idle (R222). -/
  | idle
  /-- A reset, and the events behind it. -/
  | reset (rest : List PortEvent)
  /-- A command word, and the events behind it. -/
  | command (w : Word) (rest : List PortEvent)
  deriving DecidableEq, Repr

/-- The machine: the engine and its ports. `inbox` and `resp` are the model's own fields, not state of the engine
(log 1, log 2). -/
structure State where
  /-- The nine items of R20. -/
  engine : Engine
  /-- What the host has given and the engine has not yet taken, first event first (R60, R71). -/
  inbox : List PortEvent
  /-- `resp` and `resp_valid` (R71, R72): the response of the step just completed, if it gave one. -/
  resp : Option Word
  deriving DecidableEq, Repr

/-- Why a step stops. The engine's own faults are next states (R205); these four are accesses that no reachable state
makes (R34), and stopping there is safe (log 6). -/
inductive Fault where
  /-- An access to `PAY` at an index above 127, which does not exist (R50). Raised by `PAY.PUSH` and `FRM.BUILD` in
  states with `FILL > 128`, which break INV1. Safe. -/
  | payOutside
  /-- A read of a byte of `PAY` that nothing has written (R232). Raised by `FRM.BUILD` in states whose chunk was not
  pushed whole. Safe. -/
  | payUnwritten
  /-- An access to `FRAME` at an index above 132, which does not exist (R50). Raised by `FRM.RD` in states with
  `RDPTR > 133`, which break INV2. Safe. -/
  | frameOutside
  /-- A read of a byte of `FRAME` that nothing has written (R232). Raised by `FRM.RD` and `FRM.PEEK` in states with
  `FVALID = 1` and no frame, which break INV4. Safe. -/
  | frameUnwritten
  deriving DecidableEq, Repr

/-- Why an instruction has no meaning. -/
inductive Refusal where
  /-- The instruction is not modelled yet; raised by an arm of `exec` alone, and by none now. Safe. -/
  | notModelled (mnemonic : String)
  deriving DecidableEq, Repr

/-- The engine after reset (10_state R35): no byte of `PAY` or `FRAME` has a value. -/
def Engine.reset : Engine where
  crc := 0x0000#16
  blk := 0x01#8
  pay := []
  fill := 0#8
  frame := []
  fvalid := false
  rdptr := 0#8
  fault := .none
  fcmd := 0x0000#16

/-- The machine right after reset: the engine as R35 says, nothing given by the host yet, no response. -/
def State.reset : State where
  engine := Engine.reset
  inbox := []
  resp := none

end Sys2Proof.Machine
end

