-- ==== Sys2Proof/Machine/Operands.lean ====
section
/-! DEFINITION. The operand and response forms (00_scope R15, R16; 30_encoding R73, R74; 20_memory R53, R56). -/

namespace Sys2Proof.Machine

/-- `zext_16(v)`: a byte widened to a response (R16, R56, R73). -/
def zext16 (v : Byte) : Word := v.setWidth 16

/-- `c[15:8]`, the CRC high byte (R15, R53). -/
def highByte (c : Word) : Byte := c.extractLsb' 8 8

/-- `c[7:0]`, the CRC low byte (R15, R53). -/
def lowByte (c : Word) : Byte := c.extractLsb' 0 8

/-- `a : b`, two bytes as one 16-bit value, `a` in the high bits (R15). -/
def concatBytes (a b : Byte) : Word := a ++ b

/-- A byte as a buffer index: the operand `idx8` of `FRM.PEEK` (R74), `FILL` (R134), `RDPTR` (R137). Unsigned, not
scaled. -/
def bufferIndex (v : Byte) : Nat := v.toNat

end Sys2Proof.Machine
end

