-- ==== Sys2Proof/Machine/Flags.lean ====
section
/-! DEFINITION. The flags and the views made of them: `FVALID` (10_state R24), the status word (R30), the two level
outputs (R36). The engine has no arithmetic condition codes (R25). -/

namespace Sys2Proof.Machine

/-- The 3-bit cause code (60_exceptions R201). -/
def FaultCode.code : FaultCode → BitVec 3
  | .none => 0#3
  | .illegalCmd => 1#3
  | .payOverflow => 2#3
  | .emptyBuild => 3#3
  | .frameInvalid => 4#3
  | .frameUnderrun => 5#3
  | .indexRange => 6#3

/-- The Faulted condition `FAULT != 0` (R19, R207). -/
def faulted (e : Engine) : Bool := decide (e.fault ≠ .none)

/-- A command changed an input of the frame: `FVALID <- 0`, `RDPTR <- 0` (R24, R29). -/
def invalidateFrame (e : Engine) : Engine := { e with fvalid := false, rdptr := 0#8 }

/-- The status word `(FAULT << 13) + (FVALID << 8) + FILL` (R30, R161). -/
def statusWord (e : Engine) : Word :=
  (e.fault.code.setWidth 16 <<< 13) + ((BitVec.ofBool e.fvalid).setWidth 16 <<< 8) + e.fill.setWidth 16

/-- The output `fault_o`: 1 if and only if `FAULT != 0` (R36). -/
def faultOut (e : Engine) : Bool := faulted e

/-- The output `fvalid_o`, equal to `FVALID` (R36). -/
def fvalidOut (e : Engine) : Bool := e.fvalid

end Sys2Proof.Machine
end

