-- ==== Sys2Proof/Machine/Ops.lean ====
section
/-! DEFINITION. The operations the meanings share: reading and writing a buffer (20_memory R50, R57), how a step
completes (30_encoding R72), raising a fault (60_exceptions R205) and the Faulted condition (R207), reset (70 R230),
and taking the next event at the ports (R71). -/

namespace Sys2Proof.Machine

/-- The byte listed at an index, if one is. -/
def Memory.read : Memory → Nat → Option Byte
  | [], _ => none
  | (k, v) :: m, a => if k = a then some v else Memory.read m a

/-- Write one byte, keeping the indices strictly rising. -/
def Memory.write : Memory → Nat → Byte → Memory
  | [], a, b => [(a, b)]
  | (k, v) :: m, a, b =>
    if a < k then (a, b) :: (k, v) :: m
    else if a = k then (a, b) :: m
    else (k, v) :: Memory.write m a b

/-- The buffer that holds exactly the given bytes, the first at index `a`. -/
def Memory.ofBytes : Nat → List Byte → Memory
  | _, [] => []
  | a, b :: bs => (a, b) :: Memory.ofBytes (a + 1) bs

/-- The canonical form from index `lo` on: indices strictly rising, at least `lo`, below `size`. -/
def Memory.wfFrom (size : Nat) : Nat → Memory → Bool
  | _, [] => true
  | lo, (k, _) :: m => decide (lo ≤ k) && decide (k < size) && Memory.wfFrom size (k + 1) m

/-- The canonical form of a buffer of `size` bytes (R50). An unlisted index has no value, so no listed entry can
equal it. -/
def Memory.wf (size : Nat) (m : Memory) : Bool := Memory.wfFrom size 0 m

/-- One byte of a buffer of `size` bytes (R50, R57): there is no byte from index `size` on, and a byte nothing has
written has no value (R232; log 5, log 6). -/
def readBuffer (size : Nat) (outside unwritten : Fault) (m : Memory) (i : Nat) : Except Fault Byte :=
  if i < size then
    match m.read i with
    | some b => .ok b
    | none => .error unwritten
  else .error outside

/-- `PAY[i]` (R17, R31). -/
def readPay (e : Engine) (i : Nat) : Except Fault Byte :=
  readBuffer Config.payloadLen .payOutside .payUnwritten e.pay i

/-- `FRAME[i]` (R17, R32). -/
def readFrame (e : Engine) (i : Nat) : Except Fault Byte :=
  readBuffer Config.frameLen .frameOutside .frameUnwritten e.frame i

/-- `PAY[i] <- b` (R17, R50). -/
def writePay (e : Engine) (i : Nat) (b : Byte) : Except Fault Engine :=
  if i < Config.payloadLen then .ok { e with pay := e.pay.write i b } else .error .payOutside

/-- `for i = 0 to 132: FRAME[i] <- F[i]`: `FRAME` is written as a whole (R32, R135). -/
def writeFrame (e : Engine) (f : List Byte) : Engine := { e with frame := Memory.ofBytes 0 f }

/-- `n` bytes of `PAY` from index `i` on, in order. -/
def readPayRun (pay : Memory) : Nat → Nat → Except Fault (List Byte)
  | _, 0 => .ok []
  | i, n + 1 =>
    match readBuffer Config.payloadLen .payOutside .payUnwritten pay i with
    | .error f => .error f
    | .ok b =>
      match readPayRun pay (i + 1) n with
      | .error f => .error f
      | .ok bs => .ok (b :: bs)

/-- The chunk `[PAY[0], ..., PAY[FILL - 1]]` (R135). -/
def readChunk (e : Engine) : Except Fault (List Byte) := readPayRun e.pay 0 (bufferIndex e.fill)

/-- A step that leaves the engine as `e` and gives no response (R72). -/
def complete (e : Engine) (s : State) : Host.Outcome State Fault Refusal :=
  .next { s with engine := e, resp := none }

/-- A step that leaves the engine as `e` and responds `v`: `respond(v)` (R17, R72). -/
def completeWith (v : Word) (e : Engine) (s : State) : Host.Outcome State Fault Refusal :=
  .next { s with engine := e, resp := some v }

/-- `raise Fault(cause)` for the command word `cmd` (R205): `FAULT` takes the cause, `FCMD` the word, nothing else
changes and there is no response. -/
def raiseFault (cause : FaultCode) (cmd : Word) (s : State) : Host.Outcome State Fault Refusal :=
  complete { s.engine with fault := cause, fcmd := cmd } s

/-- `if FAULT != 0 then no effect (and no response) else k` (R206 test 1, R207). -/
def unlessFaulted (s : State) (k : Host.Outcome State Fault Refusal) : Host.Outcome State Fault Refusal :=
  if faulted s.engine then complete s.engine s else k

/-- Go on with what an access answered, or stop for the reason it gave. -/
def andThen {α : Type} (x : Except Fault α) (k : α → Host.Outcome State Fault Refusal) :
    Host.Outcome State Fault Refusal :=
  match x with
  | .ok a => k a
  | .error f => .fault f

/-- A word that is no command (R77, R202, R206): while Faulted it does nothing, else it raises `ILLEGAL_CMD`. -/
def takeIllegal (w : Word) (s : State) : Host.Outcome State Fault Refusal :=
  unlessFaulted s (raiseFault .illegalCmd w s)

/-- Reset (R230): the engine's state before it is ignored; the events behind it stay, and there is no response
(log 11). -/
def takeReset (s : State) : Host.Outcome State Fault Refusal := complete Engine.reset s

/-- An idle step (R222): nothing but a command or reset changes state (log 3). -/
def takeIdle (s : State) : Host.Outcome State Fault Refusal := .next s

/-- The next event at the ports (R60, R71): the first one given. -/
def fetch (s : State) : Fetched :=
  match s.inbox with
  | [] => .idle
  | .rst :: rest => .reset rest
  | .cmd w :: rest => .command w rest

/-- The state once the fetched event is taken from the port. -/
def withInbox (s : State) (rest : List PortEvent) : State := { s with inbox := rest }

end Sys2Proof.Machine
end

