-- ==== Sys2Proof/Machine/BlkCmd.lean ====
section
/-! DEFINITION. The commands of the block sequence number (41_blocknum R121 to R123). -/

namespace Sys2Proof.Machine

/-- `BLK.SET imm8` (R121): `BLK <- imm8`; the frame is invalidated, also when the value is the old one. -/
def execBlkSet (imm8 : Byte) (s : State) : Host.Outcome State Fault Refusal :=
  unlessFaulted s (complete (invalidateFrame { s.engine with blk := imm8 }) s)

/-- `BLK.INC` (R122): `BLK <- (BLK + 1) mod 256`; the frame is invalidated. -/
def execBlkInc (s : State) : Host.Outcome State Fault Refusal :=
  unlessFaulted s (complete (invalidateFrame { s.engine with blk := s.engine.blk + 1#8 }) s)

/-- `BLK.RD` (R123): respond `zext_16(BLK)`. -/
def execBlkRd (s : State) : Host.Outcome State Fault Refusal :=
  unlessFaulted s (completeWith (zext16 s.engine.blk) s.engine s)

end Sys2Proof.Machine
end

