-- ==== Sys2Proof/Machine/CrcFun.lean ====
section
/-! DEFINITION. The arithmetic of the CRC unit (40_crc R100 to R104, R108): functions on 16-bit values, total, with no
carry, no reflection and no final XOR. -/

namespace Sys2Proof.Machine

/-- `k c`, with `c` evaluated before `k` is applied: it is `k c` (`evaluated_eq`, Laws/Crc), and is written so only to
keep a long CRC computation shallow when Lean's kernel evaluates it. -/
def evaluated {α : Type} (c : Word) (k : Word → α) : α :=
  match c.toNat with
  | 0 => k 0#16
  | n + 1 => k (BitVec.ofNat 16 (n + 1))

/-- `crc_shift(c)`, one bit step (R101): the test is on bit 15 before the shift (log 10). -/
def crcShift (c : Word) : Word :=
  if c.getLsbD 15 then (c <<< 1) ^^^ Config.poly else c <<< 1

/-- `n` bit steps. -/
def crcShifts : Nat → Word → Word
  | 0, c => c
  | n + 1, c => evaluated (crcShift c) (crcShifts n)

/-- `crc_byte(c, b)`, one byte step (R102): the byte folds into bits 15:8, then eight bit steps. -/
def crcByte (c : Word) (b : Byte) : Word := crcShifts 8 (c ^^^ (zext16 b <<< 8))

/-- The bytes of a list folded, in order, into a register that starts at `c` (R103, R110 c). -/
def crcFold : Word → List Byte → Word
  | c, [] => c
  | c, b :: bs => evaluated (crcByte c b) fun d => crcFold d bs

/-- `crc16(L)` (R103): the register starts at `CRC_INIT`. -/
def crc16 (l : List Byte) : Word := crcFold Config.crcInit l

/-- `crc_bit(c, d)`, the bit-serial step of R104. Where the two forms are thought to differ `crcByte` governs; no
meaning uses this one. -/
def crcBit (c : Word) (d : Bool) : Word :=
  if c.getLsbD 15 ^^ d then (c <<< 1) ^^^ Config.poly else c <<< 1

/-- The bits of a byte fed to `crcBit` from bit 7 down to bit 0 (R104). -/
def crcSerial (c : Word) (b : Byte) : Word :=
  [7, 6, 5, 4, 3, 2, 1, 0].foldl (fun r k => crcBit r (b.getLsbD k)) c

end Sys2Proof.Machine
end

