-- ==== Sys2Proof/Machine/CrcCmd.lean ====
section
/-! DEFINITION. The commands of the CRC unit (40_crc R105 to R107). They leave `FVALID` and `FRAME` alone (R24). -/

namespace Sys2Proof.Machine

/-- `CRC.CLR` (R105): `CRC <- 0x0000`. -/
def execCrcClr (s : State) : Host.Outcome State Fault Refusal :=
  unlessFaulted s (complete { s.engine with crc := Config.crcInit } s)

/-- `CRC.BYTE imm8` (R106): `CRC <- crc_byte(CRC, imm8)`. R106 also says that `CRC.BYTE 0x00` with `CRC != 0` changes
the register, which its own pseudocode denies at `CRC = 0xF01F`; the model follows the pseudocode (DESIGN CHOICE,
log 15). -/
def execCrcByte (imm8 : Byte) (s : State) : Host.Outcome State Fault Refusal :=
  unlessFaulted s (complete { s.engine with crc := crcByte s.engine.crc imm8 } s)

/-- `CRC.RD` (R107): respond `CRC`, with no byte swap. -/
def execCrcRd (s : State) : Host.Outcome State Fault Refusal :=
  unlessFaulted s (completeWith s.engine.crc s.engine s)

end Sys2Proof.Machine
end

