-- ==== Sys2Proof/Machine/FrameFun.lean ====
section
/-! DEFINITION. The framer's functions (42_framer R130, R131; 30_encoding R86 to R88): the padded payload and the
133-byte frame. -/

namespace Sys2Proof.Machine

/-- `pad(L)` (R130): the chunk, right-padded to 128 bytes with 0x1A. -/
def pad (l : List Byte) : List Byte := l ++ List.replicate (Config.payloadLen - l.length) Config.sub

/-- `frame(b, L)` (R131): start marker, block number, its complement `0xFF - b`, the padded payload, and the CRC of
the 128 payload bytes high byte first. -/
def frameOf (b : Byte) (l : List Byte) : List Byte :=
  [Config.soh, b, 0xFF#8 - b] ++ pad l ++ [highByte (crc16 (pad l)), lowByte (crc16 (pad l))]

end Sys2Proof.Machine
end

