-- ==== Sys2Proof/Machine/FrmCmd.lean ====
section
/-! DEFINITION. The commands that build a frame and read it out (42_framer R135, R137 to R140). -/

namespace Sys2Proof.Machine

/-- `FRM.BUILD` (R135): `EMPTY_BUILD` when `FILL = 0`, else `FRAME` takes `frame(BLK, PAY[0..FILL-1])`, `CRC` the CRC
of the padded payload, `FVALID <- 1`, `RDPTR <- 0`. -/
def execFrmBuild (s : State) : Host.Outcome State Fault Refusal :=
  unlessFaulted s <|
    if s.engine.fill = 0#8 then raiseFault .emptyBuild (encode .frmBuild) s
    else andThen (readChunk s.engine) fun l =>
      complete { writeFrame s.engine (frameOf s.engine.blk l) with
        crc := crc16 (pad l), fvalid := true, rdptr := 0#8 } s

/-- `FRM.RD` (R137): `FRAME_INVALID` when `FVALID = 0`, then `FRAME_UNDERRUN` when `RDPTR = 133`, else respond
`zext_16(FRAME[RDPTR])` and `RDPTR <- RDPTR + 1`. -/
def execFrmRd (s : State) : Host.Outcome State Fault Refusal :=
  unlessFaulted s <|
    if s.engine.fvalid = false then raiseFault .frameInvalid (encode .frmRd) s
    else if s.engine.rdptr = 133#8 then raiseFault .frameUnderrun (encode .frmRd) s
    else andThen (readFrame s.engine (bufferIndex s.engine.rdptr)) fun b =>
      completeWith (zext16 b) { s.engine with rdptr := s.engine.rdptr + 1#8 } s

/-- `FRM.REWIND` (R138): `RDPTR <- 0`, also with no valid frame. -/
def execFrmRewind (s : State) : Host.Outcome State Fault Refusal :=
  unlessFaulted s (complete { s.engine with rdptr := 0#8 } s)

/-- `FRM.PEEK idx8` (R139): `FRAME_INVALID` when `FVALID = 0`, then `INDEX_RANGE` when `idx8 >= 133`, else respond
`zext_16(FRAME[idx8])`; `RDPTR` does not move. -/
def execFrmPeek (idx8 : Byte) (s : State) : Host.Outcome State Fault Refusal :=
  unlessFaulted s <|
    if s.engine.fvalid = false then raiseFault .frameInvalid (encode (.frmPeek idx8)) s
    else if 133 ≤ bufferIndex idx8 then raiseFault .indexRange (encode (.frmPeek idx8)) s
    else andThen (readFrame s.engine (bufferIndex idx8)) fun b =>
      completeWith (zext16 b) s.engine s

/-- `FRM.POS` (R140): respond `zext_16(RDPTR)`. -/
def execFrmPos (s : State) : Host.Outcome State Fault Refusal :=
  unlessFaulted s (completeWith (zext16 s.engine.rdptr) s.engine s)

end Sys2Proof.Machine
end

