-- ==== Sys2Proof/Machine/PayCmd.lean ====
section
/-! DEFINITION. The commands that load a chunk (42_framer R133, R134). -/

namespace Sys2Proof.Machine

/-- `PAY.CLR` (R133): `FILL <- 0`; the frame is invalidated; the bytes of `PAY` are not written. -/
def execPayClr (s : State) : Host.Outcome State Fault Refusal :=
  unlessFaulted s (complete (invalidateFrame { s.engine with fill := 0#8 }) s)

/-- `PAY.PUSH imm8` (R134): `PAY_OVERFLOW` when `FILL = 128`, else `PAY[FILL] <- imm8`, `FILL <- FILL + 1`; the frame
is invalidated. -/
def execPayPush (imm8 : Byte) (s : State) : Host.Outcome State Fault Refusal :=
  unlessFaulted s <|
    if s.engine.fill = 128#8 then raiseFault .payOverflow (encode (.payPush imm8)) s
    else andThen (writePay s.engine (bufferIndex s.engine.fill) imm8) fun e =>
      complete (invalidateFrame { e with fill := s.engine.fill + 1#8 }) s

end Sys2Proof.Machine
end

