-- ==== Sys2Proof/Machine/SysCmd.lean ====
section
/-! DEFINITION. The system commands (43_status R160 to R162). They alone are executed in the same way whether or not
the engine is Faulted (60_exceptions R207). -/

namespace Sys2Proof.Machine

/-- `NOP` (R160): no effect, no response, Faulted or not. -/
def execNop (s : State) : Host.Outcome State Fault Refusal := complete s.engine s

/-- `STAT.RD` (R161): respond the status word of R30. -/
def execStatRd (s : State) : Host.Outcome State Fault Refusal :=
  completeWith (statusWord s.engine) s.engine s

/-- `FLT.RD` (R162): respond `FCMD`. -/
def execFltRd (s : State) : Host.Outcome State Fault Refusal :=
  completeWith s.engine.fcmd s.engine s

end Sys2Proof.Machine
end

