-- ==== Sys2Proof/Machine/Dispatch.lean ====
section
/-! DEFINITION. One arm per command (30_encoding R75), each one call of its meaning. -/

namespace Sys2Proof.Machine

def exec (i : Instr) (s : State) : Host.Outcome State Fault Refusal :=
  match i with
  -- 43_status
  | .nop => Sys2Proof.Machine.execNop s
  | .statRd => Sys2Proof.Machine.execStatRd s
  | .fltRd => Sys2Proof.Machine.execFltRd s
  -- 40_crc
  | .crcClr => Sys2Proof.Machine.execCrcClr s
  | .crcByte imm8 => Sys2Proof.Machine.execCrcByte imm8 s
  | .crcRd => Sys2Proof.Machine.execCrcRd s
  -- 41_blocknum
  | .blkSet imm8 => Sys2Proof.Machine.execBlkSet imm8 s
  | .blkInc => Sys2Proof.Machine.execBlkInc s
  | .blkRd => Sys2Proof.Machine.execBlkRd s
  -- 42_framer
  | .payClr => Sys2Proof.Machine.execPayClr s
  | .payPush imm8 => Sys2Proof.Machine.execPayPush imm8 s
  | .frmBuild => Sys2Proof.Machine.execFrmBuild s
  | .frmRd => Sys2Proof.Machine.execFrmRd s
  | .frmRewind => Sys2Proof.Machine.execFrmRewind s
  | .frmPeek idx8 => Sys2Proof.Machine.execFrmPeek idx8 s
  | .frmPos => Sys2Proof.Machine.execFrmPos s

end Sys2Proof.Machine
end

