-- ==== Sys2Proof/Machine/Step.lean ====
section
/-! DEFINITION. One step: one command, one reset (00_scope R19, 70 R231), or nothing while the host gives nothing. -/

namespace Sys2Proof.Machine

/-- Take the next event at the ports. A command word is decoded; a legal one is executed (each meaning tests Faulted
first, R206, R207), an illegal one is taken as R202 says. -/
def step (s : State) : Host.Outcome State Fault Refusal :=
  match fetch s with
  | .idle => takeIdle s
  | .reset rest => takeReset (withInbox s rest)
  | .command w rest =>
    match decode w with
    | .ok i => exec i (withInbox s rest)
    | .error _ => takeIllegal w (withInbox s rest)

/-- `s` with the command word put before everything the host has given, so that the next step runs it (log 4). -/
def State.withFetchWord (s : State) (nbits w : Nat) : State :=
  { s with inbox := .cmd (BitVec.ofNat 16 (w % 2 ^ nbits)) :: s.inbox }

end Sys2Proof.Machine
end

