-- ==== Sys2Proof/Machine/Asm.lean ====
section
/-! DEFINITION. The assembler notation of 30_encoding R78 as text: one command per line, `MNEMONIC` or
`MNEMONIC operand`, the operand hexadecimal with `0x` or decimal, a comment from `;` to the end of the line. A line
of text is a list of characters. No step reads this file. -/

namespace Sys2Proof.Machine

/-- A mnemonic as R75 spells it. -/
def mnemonicText : Mnemonic → List Char
  | .nop => ['N', 'O', 'P']
  | .statRd => ['S', 'T', 'A', 'T', '.', 'R', 'D']
  | .fltRd => ['F', 'L', 'T', '.', 'R', 'D']
  | .crcClr => ['C', 'R', 'C', '.', 'C', 'L', 'R']
  | .crcByte => ['C', 'R', 'C', '.', 'B', 'Y', 'T', 'E']
  | .crcRd => ['C', 'R', 'C', '.', 'R', 'D']
  | .blkSet => ['B', 'L', 'K', '.', 'S', 'E', 'T']
  | .blkInc => ['B', 'L', 'K', '.', 'I', 'N', 'C']
  | .blkRd => ['B', 'L', 'K', '.', 'R', 'D']
  | .payClr => ['P', 'A', 'Y', '.', 'C', 'L', 'R']
  | .payPush => ['P', 'A', 'Y', '.', 'P', 'U', 'S', 'H']
  | .frmBuild => ['F', 'R', 'M', '.', 'B', 'U', 'I', 'L', 'D']
  | .frmRd => ['F', 'R', 'M', '.', 'R', 'D']
  | .frmRewind => ['F', 'R', 'M', '.', 'R', 'E', 'W', 'I', 'N', 'D']
  | .frmPeek => ['F', 'R', 'M', '.', 'P', 'E', 'E', 'K']
  | .frmPos => ['F', 'R', 'M', '.', 'P', 'O', 'S']

/-- The mnemonic a word of text spells, if it spells one. -/
def parseMnemonic (t : List Char) : Option Mnemonic :=
  (opcodeTable.map (·.mnemonic)).find? fun m => mnemonicText m == t

/-- The value of one digit, decimal or hexadecimal. -/
def digitValue (c : Char) : Option Nat :=
  if '0' ≤ c ∧ c ≤ '9' then some (c.toNat - '0'.toNat)
  else if 'a' ≤ c ∧ c ≤ 'f' then some (c.toNat - 'a'.toNat + 10)
  else if 'A' ≤ c ∧ c ≤ 'F' then some (c.toNat - 'A'.toNat + 10)
  else none

/-- The value of a run of digits in a base, `acc` being the value of the digits before. -/
def digitsValue (base : Nat) : Nat → List Char → Option Nat
  | acc, [] => some acc
  | acc, c :: cs =>
    match digitValue c with
    | some d => if d < base then digitsValue base (acc * base + d) cs else none
    | none => none

/-- A numeral: hexadecimal with `0x`, or decimal; at least one digit (R78). -/
def parseNumeral : List Char → Option Nat
  | [] => none
  | '0' :: 'x' :: [] => none
  | '0' :: 'x' :: ds => digitsValue 16 0 ds
  | ds => digitsValue 10 0 ds

/-- A line without its comment (R78). -/
def stripComment (t : List Char) : List Char := t.takeWhile fun c => c != ';'

/-- The words of a line, split at blanks. -/
def words : List Char → List Char → List (List Char)
  | acc, [] => if acc = [] then [] else [acc.reverse]
  | acc, c :: cs =>
    if c = ' ' ∨ c = '\t' then (if acc = [] then words [] cs else acc.reverse :: words [] cs)
    else words (c :: acc) cs

/-- A line of text (R78): one command. 95_test_vectors P2, P3 and P6 also write lines that R78 has no form for, the
repetition `FRM.RD  x 133`, a pseudo-command of R79, and two commands with `;` between them; the model refuses the
first two and reads the third as its first command and a comment (DESIGN CHOICE, log 14). -/
def parseLine (t : List Char) : Option Line :=
  match words [] (stripComment t) with
  | [m] => (parseMnemonic m).map fun m => ⟨m, none⟩
  | [m, n] =>
    match parseMnemonic m, parseNumeral n with
    | some m, some n => some ⟨m, some n⟩
    | _, _ => none
  | _ => none

/-- The command a line of text names: none where the text or the line is ill-formed. -/
def assembleText (t : List Char) : Option Instr := (parseLine t).bind Line.assemble

end Sys2Proof.Machine
end

