-- ==== Sys2Proof/Machine/Pseudo.lean ====
section
/-! DEFINITION. The pseudo-commands (30_encoding R79): each stands for a list of commands. No step reads this file; it
says which command lists the rules R109, R141 and R186 speak of. -/

namespace Sys2Proof.Machine

/-- The pseudo-commands of R79. -/
inductive Pseudo where
  /-- `CRC16 L`. -/
  | crc16 (l : List Byte)
  /-- `LOAD L`, for 1 to 128 bytes. -/
  | load (l : List Byte)
  /-- `SEND`. -/
  | send
  /-- `PACKET L`. -/
  | packet (l : List Byte)
  /-- `RESEND`. -/
  | resend
  /-- `ADVANCE`. -/
  | advance
  /-- `SESSION`. -/
  | session
  deriving DecidableEq, Repr

/-- `LOAD` is given 1 to 128 bytes (R79), and `PACKET` begins with it. -/
def pseudoWellFormed : Pseudo → Bool
  | .load l | .packet l => decide (1 ≤ l.length) && decide (l.length ≤ Config.payloadLen)
  | .crc16 _ | .send | .resend | .advance | .session => true

/-- `CRC16 L` (R79, R109). -/
def crc16Commands (l : List Byte) : List Instr := .crcClr :: l.map .crcByte ++ [.crcRd]

/-- `LOAD L` (R79). -/
def loadCommands (l : List Byte) : List Instr := .payClr :: l.map .payPush

/-- `SEND`: `FRM.RD` repeated 133 times (R79). -/
def sendCommands : List Instr := List.replicate Config.frameLen .frmRd

/-- The expansion of a pseudo-command (R79). -/
def expand : Pseudo → List Instr
  | .crc16 l => crc16Commands l
  | .load l => loadCommands l
  | .send => sendCommands
  | .packet l => loadCommands l ++ .frmBuild :: sendCommands
  | .resend => .frmRewind :: sendCommands
  | .advance => [.blkInc]
  | .session => [.blkSet Config.blkFirst, .payClr]

/-- What the engine sees of one block that is sent `n` times and then acknowledged (44_host_context R186): the chunk
loaded and built, a rewind and 133 reads per transmission, then one increment. -/
def blockCommands (l : List Byte) (n : Nat) : List Instr :=
  expand (.load l) ++ .frmBuild :: (List.replicate n (expand .resend)).flatten ++ expand .advance

/-- A command list as the host gives it at the command port (R70, R71). -/
def given (cs : List Instr) : List PortEvent := cs.map fun i => .cmd (encode i)

end Sys2Proof.Machine
end

