-- ==== Sys2Proof/Safety.lean ====
section
/-! DEFINITION. The terms the claims are stated in: the states a command or a fault leaves (R72, R205), the invariants
of 10_state R34, what a fault records (60_exceptions R201), and which states the rules cannot tell apart (R31, R32). -/

namespace Sys2Proof.Machine

/-- The state with the engine `e` and the response `r`, everything else as it was (R72). -/
def after (s : State) (e : Engine) (r : Option Word) : State := { s with engine := e, resp := r }

/-- The state with the engine as it was and no response (R72, R207). -/
def silent (s : State) : State := { s with resp := none }

/-- The state with the engine as it was and the response `v`. -/
def answering (s : State) (v : Word) : State := { s with resp := some v }

/-- The state after `raise Fault(cause)` for the word `cmd` (R205). -/
def raised (s : State) (cause : FaultCode) (cmd : Word) : State :=
  { s with engine := { s.engine with fault := cause, fcmd := cmd }, resp := none }

/-- `k` steps in order (20_memory R61), stopping at the first that does not answer a next state. -/
def runSteps : Nat → State → Host.Outcome State Fault Refusal
  | 0, s => .next s
  | k + 1, s =>
    match step s with
    | .next t => runSteps k t
    | .fault f => .fault f
    | .refused r => .refused r

/-- Every byte of both buffers reads as before. -/
def SameBuffers (s t : State) : Prop :=
  (∀ a, readPay t.engine a = readPay s.engine a) ∧ ∀ a, readFrame t.engine a = readFrame s.engine a

/-- R207 for one command: while Faulted it changes nothing and gives no response. -/
def InertWhileFaulted (i : Instr) : Prop :=
  ∀ s : State, s.engine.fault ≠ .none → exec i s = .next (silent s)

/-- R77 (b) for the word of a format Z command: with any other low byte it raises `ILLEGAL_CMD`, and `FCMD` records
the word. -/
def OperandIsIllegal (base : Word) : Prop :=
  ∀ (s : State) (rest : List PortEvent) (x : Byte), x ≠ 0#8 → s.engine.fault = .none →
    s.inbox = .cmd (base + x.setWidth 16) :: rest →
      step s = .next (raised { s with inbox := rest } .illegalCmd (base + x.setWidth 16))

/-- INV1 to INV4 and INV6 (10_state R34), with what R232 says of the chunk (every byte below `FILL` has been written)
and the canonical form of both buffers. INV5 is the type of `FAULT`; INV7 follows from INV4. -/
structure Engine.Inv (e : Engine) : Prop where
  /-- INV1. -/
  fill_le : e.fill.toNat ≤ 128
  /-- INV2. -/
  rdptr_le : e.rdptr.toNat ≤ 133
  /-- INV3. -/
  rdptr_zero : e.fvalid = false → e.rdptr = 0#8
  /-- R232: every byte of the chunk has been written. -/
  chunk_written : ∃ l, readChunk e = .ok l
  /-- INV4. -/
  frame_current : e.fvalid = true → 1 ≤ e.fill.toNat ∧ ∃ l, readChunk e = .ok l ∧
    ∀ i, i < 133 → readFrame e i = .ok ((frameOf e.blk l).getD i 0#8)
  /-- INV6. -/
  fcmd_zero : e.fault = .none → e.fcmd = 0x0000#16
  /-- `PAY` is in canonical form. -/
  pay_wf : e.pay.wf 128 = true
  /-- `FRAME` is in canonical form. -/
  frame_wf : e.frame.wf 133 = true

/-- The invariant of a whole state is its engine's. -/
def State.Inv (s : State) : Prop := s.engine.Inv

/-- The column "recorded in FCMD" of R201: the word is one that can raise the cause. -/
def FaultRecorded (e : Engine) : Prop :=
  match e.fault with
  | .none => e.fcmd = 0x0000#16
  | .illegalCmd => ∀ i, decode e.fcmd ≠ .ok i
  | .payOverflow => ∃ b, e.fcmd = encode (.payPush b)
  | .emptyBuild => e.fcmd = 0x4000#16
  | .frameInvalid => e.fcmd = 0x4100#16 ∨ ∃ b, e.fcmd = encode (.frmPeek b)
  | .frameUnderrun => e.fcmd = 0x4100#16
  | .indexRange => ∃ b : Byte, 133 ≤ b.toNat ∧ e.fcmd = encode (.frmPeek b)

/-- Two states that differ at most in bytes no rule reads (R31, R32, R232): the bytes of `PAY` from `FILL` on, and
all of `FRAME` while `FVALID = 0`. -/
structure Indistinct (s t : State) : Prop where
  crc : s.engine.crc = t.engine.crc
  blk : s.engine.blk = t.engine.blk
  fill : s.engine.fill = t.engine.fill
  fvalid : s.engine.fvalid = t.engine.fvalid
  rdptr : s.engine.rdptr = t.engine.rdptr
  fault : s.engine.fault = t.engine.fault
  fcmd : s.engine.fcmd = t.engine.fcmd
  inbox : s.inbox = t.inbox
  resp : s.resp = t.resp
  pay : ∀ i, i < s.engine.fill.toNat → readPay s.engine i = readPay t.engine i
  frame : s.engine.fvalid = true → ∀ i, readFrame s.engine i = readFrame t.engine i

/-- Two answers of a step that no rule can tell apart. -/
def IndistinctOutcome : Host.Outcome State Fault Refusal → Host.Outcome State Fault Refusal → Prop
  | .next s, .next t => Indistinct s t
  | .fault f, .fault g => f = g
  | .refused r, .refused q => r = q
  | _, _ => False

end Sys2Proof.Machine
end

