-- ==== Sys2Proof/Certificates/Slice0/Obligations.lean ====
section
/-! DEFINITION. The statements for the provers, from the numbered rules of spec/. -/

open Sys2Proof Sys2Proof.Machine

/-! ### Encoding (30_encoding) -/

/-- A few words of 30_encoding R75 and 95_test_vectors V2.11, legal and illegal. -/
def Obligations.CommandWordsDecode : Prop :=
  decode 0x0000#16 = .ok .nop ∧ decode 0x0200#16 = .ok .fltRd ∧ decode 0x1131#16 = .ok (.crcByte 0x31#8) ∧
  decode 0x20FE#16 = .ok (.blkSet 0xFE#8) ∧ decode 0x31AA#16 = .ok (.payPush 0xAA#8) ∧
  decode 0x4384#16 = .ok (.frmPeek 132#8) ∧
  decode 0x1001#16 = .error (.nonzeroOperand .crcClr 0x01#8) ∧ decode 0x4500#16 = .error (.unknownOpcode 0x45#8)

/-- R70, R75, R78: decoding the word of a well-formed command gives the command back, at every operand. -/
def Obligations.DecodeOfEncode : Prop :=
  ∀ i : Instr, i.wellFormed = true → decode (encode i) = .ok i

/-- R75 "no command word matches two rows": a word decodes to a command exactly when it is that command's word. -/
def Obligations.DecodedWordIsTheEncoding : Prop :=
  ∀ (w : Word) (i : Instr), decode w = .ok i ↔ w = encode i

/-- R75: the number of command words that decode to a command is 12 x 1 + 4 x 256 = 1036. -/
def Obligations.LegalWordsAreCounted : Prop :=
  Nat.card { w : Word // ∃ i, decode w = .ok i } = 1036

/-- R202: exactly the words with an unlisted opcode, or a format Z opcode and a nonzero operand, are illegal; with
`FAULT = 0` such a word raises `ILLEGAL_CMD`, code 1, `FCMD` records the whole word, and no other state changes. -/
def Obligations.IllegalWordRaisesFault : Prop :=
  (∀ w : Word, (∃ r, decode w = .error r) ↔
    (cmdOpcode w ∉ [0x00#8, 0x01#8, 0x02#8, 0x10#8, 0x11#8, 0x12#8, 0x20#8, 0x21#8, 0x22#8, 0x30#8, 0x31#8,
        0x40#8, 0x41#8, 0x42#8, 0x43#8, 0x44#8] ∨
      (cmdOpcode w ∉ [0x11#8, 0x20#8, 0x31#8, 0x43#8] ∧ cmdOperand w ≠ 0x00#8))) ∧
  FaultCode.illegalCmd.code = 1#3 ∧
  ∀ (s : State) (w : Word) (rest : List PortEvent) (r : IllegalWord),
    s.inbox = .cmd w :: rest → decode w = .error r → s.engine.fault = .none →
      step s = .next (raised { s with inbox := rest } .illegalCmd w)

/-- R74, R78: the opcode of a command stands in `cmd[15:8]`, its operand, if it has one, unsigned in `cmd[7:0]`, and
0x00 stands there if it has none. -/
def Obligations.WordFieldsOfCommand : Prop :=
  ∀ i : Instr, cmdOpcode (encode i) = i.line.mnemonic.opcode ∧ (cmdOperand (encode i)).toNat = i.line.operand.getD 0

/-! ### The step, reset, and the Faulted condition (20_memory, 60_exceptions, 70) -/

/-- R60, R72: when the first event is a word that decodes to a well-formed command, the step is that command's
execution, the event taken from the port, and nothing else. -/
def Obligations.StepRunsDecodedCommand : Prop :=
  ∀ (s : State) (w : Word) (rest : List PortEvent) (i : Instr),
    s.inbox = .cmd w :: rest → decode w = .ok i → i.wellFormed = true →
      step s = exec i { s with inbox := rest }

/-- R35, R230: reset ignores the state before it and leaves the values the spec gives; both outputs are 0. The state
`State.reset` has the same values. That the events behind the reset stay (`t.inbox = rest`) is the model's choice
(log 11). -/
def Obligations.ResetLeavesResetValues : Prop :=
  (∀ (s : State) (rest : List PortEvent), s.inbox = .rst :: rest →
    ∃ t, step s = .next t ∧ t.inbox = rest ∧
      t.engine.crc = 0x0000#16 ∧ t.engine.blk = 0x01#8 ∧ t.engine.fill = 0#8 ∧ t.engine.fvalid = false ∧
      t.engine.rdptr = 0#8 ∧ t.engine.fault = .none ∧ t.engine.fcmd = 0x0000#16 ∧
      faultOut t.engine = false ∧ fvalidOut t.engine = false) ∧
  State.reset.engine.crc = 0x0000#16 ∧ State.reset.engine.blk = 0x01#8 ∧ State.reset.engine.fill = 0#8 ∧
  State.reset.engine.fvalid = false ∧ State.reset.engine.rdptr = 0#8 ∧ State.reset.engine.fault = .none ∧
  State.reset.engine.fcmd = 0x0000#16 ∧ faultOut State.reset.engine = false ∧ fvalidOut State.reset.engine = false

/-- R222: with nothing given, the engine is idle and keeps all state. That this is a step of the model at all is its
choice (log 3). -/
def Obligations.IdleKeepsState : Prop :=
  ∀ s : State, s.inbox = [] → step s = .next s

/-- R207: while Faulted, `STAT.RD` and `FLT.RD` respond, `NOP` does nothing as usual, and every other word, legal or
illegal, changes no state and gives no response. -/
def Obligations.FaultedEngineIsFrozen : Prop :=
  ∀ (s : State) (w : Word) (rest : List PortEvent), s.inbox = .cmd w :: rest → s.engine.fault ≠ .none →
    step s = .next (after { s with inbox := rest } s.engine
      (if w = 0x0100#16 then some (statusWord s.engine) else if w = 0x0200#16 then some s.engine.fcmd else none))

/-- R205, R27, R28: a step keeps `FAULT` and `FCMD`, or is a reset, or finds `FAULT = 0` and raises a fault: then a
command word was given, `FCMD` takes it, nothing else of the engine changes, there is no response, and the output
`fault_o` becomes 1. -/
def Obligations.FaultEntryIsPrecise : Prop :=
  ∀ s t : State, step s = .next t →
    (t.engine.fault = s.engine.fault ∧ t.engine.fcmd = s.engine.fcmd) ∨
    (∃ rest, s.inbox = .rst :: rest ∧ t.engine = Engine.reset) ∨
    (s.engine.fault = .none ∧ t.engine.fault ≠ .none ∧ ∃ w rest, s.inbox = .cmd w :: rest ∧
      t.engine = { s.engine with fault := t.engine.fault, fcmd := w } ∧ t.resp = none ∧
        faultOut t.engine = true)

/-- R211: no step but a reset leaves the Faulted condition or changes anything of a Faulted engine; a reset leaves it,
and loses the block number, the chunk and the frame. -/
def Obligations.OnlyResetClearsFault : Prop :=
  (∀ s t : State, s.engine.fault ≠ .none → (∀ rest, s.inbox ≠ .rst :: rest) → step s = .next t →
    t.engine = s.engine) ∧
  ∀ (s : State) (rest : List PortEvent), s.engine.fault ≠ .none → s.inbox = .rst :: rest →
    ∃ t, step s = .next t ∧ t.engine.fault = .none ∧ t.engine.blk = 0x01#8 ∧ t.engine.fill = 0#8 ∧
      t.engine.fvalid = false

/-- R36: `fault_o = 1` if and only if `FAULT != 0`, and `fvalid_o = FVALID`. -/
def Obligations.OutputsMirrorState : Prop :=
  ∀ e : Engine, (faultOut e = true ↔ e.fault ≠ .none) ∧ fvalidOut e = e.fvalid

/-- R72: a response comes only from a command of the column "responds" of R75, and such a command responds unless
the engine is Faulted when it ends (`STAT.RD` and `FLT.RD` always respond). -/
def Obligations.ResponsesComeFromRespondingCommands : Prop :=
  ∀ (i : Instr) (s t : State), exec i s = .next t →
    (t.resp ≠ none ↔
      i = .statRd ∨ i = .fltRd ∨ (i.line.mnemonic.responds = true ∧ t.engine.fault = .none))

/-- R201, R203, R204, R206, R208 to R210: the codes, and for a legal command given with `FAULT = 0` each cause exactly
under its condition, `FRAME_INVALID` before the range tests, with the command's own word recorded and no response. -/
def Obligations.FaultsExactlyUnderTheirConditions : Prop :=
  [FaultCode.none, .illegalCmd, .payOverflow, .emptyBuild, .frameInvalid, .frameUnderrun, .indexRange].map
    (fun c => c.code.toNat) = [0, 1, 2, 3, 4, 5, 6] ∧
  ∀ (i : Instr) (s t : State), s.engine.fault = .none → exec i s = .next t →
    (t.engine.fault = .payOverflow ↔ (∃ b, i = .payPush b) ∧ s.engine.fill = 128#8) ∧
    (t.engine.fault = .emptyBuild ↔ i = .frmBuild ∧ s.engine.fill = 0#8) ∧
    (t.engine.fault = .frameInvalid ↔ (i = .frmRd ∨ ∃ x, i = .frmPeek x) ∧ s.engine.fvalid = false) ∧
    (t.engine.fault = .frameUnderrun ↔ i = .frmRd ∧ s.engine.fvalid = true ∧ s.engine.rdptr = 133#8) ∧
    (t.engine.fault = .indexRange ↔ (∃ x, i = .frmPeek x ∧ 133 ≤ x.toNat) ∧ s.engine.fvalid = true) ∧
    t.engine.fault ≠ .illegalCmd ∧ (t.engine.fault ≠ .none → t.engine.fcmd = encode i ∧ t.resp = none)

/-- R201 and R212: these twelve commands, given as legal words, raise no fault in any state. -/
def Obligations.TwelveCommandsNeverFault : Prop :=
  ∀ (i : Instr) (s : State), i.line.mnemonic ∈ [.nop, .statRd, .fltRd, .crcClr, .crcByte, .crcRd, .blkSet, .blkInc,
      .blkRd, .payClr, .frmRewind, .frmPos] →
    ∃ t, exec i s = .next t ∧ t.engine.fault = s.engine.fault ∧ t.engine.fcmd = s.engine.fcmd

/-! ### System commands (43_status) -/

/-- R160: `NOP`, word 0x0000, does nothing, Faulted or not; 0x0001 to 0x00FF are illegal. -/
def Obligations.NopDoesNothing : Prop :=
  encode .nop = 0x0000#16 ∧ OperandIsIllegal 0x0000#16 ∧ ∀ s : State, exec .nop s = .next (silent s)

/-- R161, R30: `STAT.RD` responds, Faulted or not, with `FAULT` in bits 15:13, zeros in 12:9, `FVALID` in bit 8 and
`FILL` in bits 7:0, and changes nothing. -/
def Obligations.StatRdRespondsStatus : Prop :=
  encode .statRd = 0x0100#16 ∧ OperandIsIllegal 0x0100#16 ∧
  ∀ s : State, ∃ v : Word, exec .statRd s = .next (answering s v) ∧
    v = (s.engine.fault.code.setWidth 16 <<< 13) + ((BitVec.ofBool s.engine.fvalid).setWidth 16 <<< 8) +
      s.engine.fill.setWidth 16 ∧
    v.extractLsb' 13 3 = s.engine.fault.code ∧ v.extractLsb' 9 4 = 0#4 ∧
    v.getLsbD 8 = s.engine.fvalid ∧ v.extractLsb' 0 8 = s.engine.fill

/-- R162: `FLT.RD` responds `FCMD`, Faulted or not, and changes nothing. -/
def Obligations.FltRdRespondsFcmd : Prop :=
  encode .fltRd = 0x0200#16 ∧ OperandIsIllegal 0x0200#16 ∧
  ∀ s : State, exec .fltRd s = .next (answering s s.engine.fcmd)

/-! ### The CRC unit (40_crc) -/

/-- R105: `CRC.CLR` clears the register and nothing else. -/
def Obligations.CrcClrClearsRegister : Prop :=
  encode .crcClr = 0x1000#16 ∧ OperandIsIllegal 0x1000#16 ∧ InertWhileFaulted .crcClr ∧
  ∀ s : State, s.engine.fault = .none →
    exec .crcClr s = .next (after s { s.engine with crc := 0x0000#16 } none)

/-- R106: `CRC.BYTE imm8` folds one byte into the register, at every operand, and changes nothing else. That the
pseudocode governs at `CRC = 0xF01F`, where a corner-case sentence of R106 says otherwise, is the model's choice
(log 15). -/
def Obligations.CrcByteFoldsByte : Prop :=
  ∀ b : Byte, encode (.crcByte b) = 0x1100#16 + b.setWidth 16 ∧ InertWhileFaulted (.crcByte b) ∧
  ∀ s : State, s.engine.fault = .none →
    exec (.crcByte b) s = .next (after s { s.engine with crc := crcByte s.engine.crc b } none)

/-- R107: `CRC.RD` responds the register, unswapped, and changes nothing. -/
def Obligations.CrcRdRespondsRegister : Prop :=
  encode .crcRd = 0x1200#16 ∧ OperandIsIllegal 0x1200#16 ∧ InertWhileFaulted .crcRd ∧
  ∀ s : State, s.engine.fault = .none → exec .crcRd s = .next (answering s s.engine.crc)

/-- R101 to R103: one bit step by the number, one byte step as the fold into the high byte and eight bit steps, and a
list as its bytes folded in order into a register that starts at 0. That the bit step tests the bit shifted out is
general knowledge that the spec confirms by the check value (log 10). -/
def Obligations.CrcFunctionsAreTheBitAtATimeAlgorithm : Prop :=
  (∀ c : Word, (crcShift c).toNat =
    if 2 ^ 15 ≤ c.toNat then (c.toNat * 2 % 2 ^ 16) ^^^ 0x1021 else c.toNat * 2 % 2 ^ 16) ∧
  (∀ (c : Word) (b : Byte), crcByte c b = crcShift^[8] (c ^^^ (b.setWidth 16 <<< 8))) ∧
  ∀ l : List Byte, crc16 l = l.foldl crcByte 0x0000#16

/-- R104: feeding the bits of a byte, bit 7 first, to the bit-serial step gives the byte step. -/
def Obligations.CrcSerialFormAgrees : Prop :=
  ∀ (c : Word) (b : Byte), crcSerial c b = crcByte c b

/-- R110 (a): the CRC is linear over exclusive or, for one bit, one byte, and lists of one length. -/
def Obligations.CrcIsLinear : Prop :=
  (∀ x y : Word, crcShift (x ^^^ y) = crcShift x ^^^ crcShift y) ∧
  (∀ (c c' : Word) (b b' : Byte), crcByte (c ^^^ c') (b ^^^ b') = crcByte c b ^^^ crcByte c' b') ∧
  ∀ k l : List Byte, k.length = l.length → crc16 (List.zipWith (· ^^^ ·) k l) = crc16 k ^^^ crc16 l

/-- R110 (b), (c) and R103: leading zeros do not show, a list continues from the register its first part left, and
the last byte is the last fold. R110 (b) adds that trailing zeros change the value; by R102 and R103 they do not where
the CRC is 0x0000 or 0xF01F, so no such law is stated: the model's choice (log 15). -/
def Obligations.CrcLeadingZerosAndContinuation : Prop :=
  (∀ (k : Nat) (l : List Byte), crc16 (List.replicate k 0x00#8 ++ l) = crc16 l) ∧
  (∀ k l : List Byte, crc16 (k ++ l) = crcFold (crc16 k) l) ∧
  ∀ (l : List Byte) (b : Byte), crc16 (l ++ [b]) = crcByte (crc16 l) b

/-- R110 (d): the table-driven form. -/
def Obligations.CrcTableForm : Prop :=
  ∀ (c : Word) (b : Byte), crcByte c b = crcByte 0x0000#16 (highByte c ^^^ b) ^^^ (c <<< 8)

/-- R110 (e): the CRC bytes appended high byte first give residue 0. -/
def Obligations.CrcResidueIsZero : Prop :=
  ∀ l : List Byte, crc16 (l ++ [highByte (crc16 l), lowByte (crc16 l)]) = 0x0000#16

/-- R110 (f): for a fixed byte the byte step is a bijection of the register, and for a fixed register it is injective
in the byte. -/
def Obligations.CrcByteIsBijective : Prop :=
  (∀ b : Byte, Function.Bijective fun c : Word => crcByte c b) ∧
  ∀ c : Word, Function.Injective fun b : Byte => crcByte c b

/-- R109: from every non-Faulted state, the commands of `CRC16 L` leave `crc16(L)` in the register, the last one
responds it, and no other state changes. -/
def Obligations.CrcCommandsComputeCrc16 : Prop :=
  ∀ (l : List Byte) (s : State) (rest : List PortEvent), s.engine.fault = .none →
    s.inbox = given (crc16Commands l) ++ rest →
      runSteps (l.length + 2) s =
        .next { engine := { s.engine with crc := crc16 l }, inbox := rest, resp := some (crc16 l) }

/-! ### The block number (41_blocknum) -/

/-- R121: `BLK.SET imm8` loads the number, at every operand, and invalidates the frame. -/
def Obligations.BlkSetLoadsNumber : Prop :=
  ∀ b : Byte, encode (.blkSet b) = 0x2000#16 + b.setWidth 16 ∧ InertWhileFaulted (.blkSet b) ∧
  ∀ s : State, s.engine.fault = .none →
    exec (.blkSet b) s = .next (after s { s.engine with blk := b, fvalid := false, rdptr := 0#8 } none)

/-- R122: `BLK.INC` gives `(BLK + 1) mod 256`, no fault at 0xFF, and invalidates the frame. -/
def Obligations.BlkIncAdvancesNumber : Prop :=
  encode .blkInc = 0x2100#16 ∧ OperandIsIllegal 0x2100#16 ∧ InertWhileFaulted .blkInc ∧
  ∀ s : State, s.engine.fault = .none → ∃ n : Byte, n.toNat = (s.engine.blk.toNat + 1) % 256 ∧
    exec .blkInc s = .next (after s { s.engine with blk := n, fvalid := false, rdptr := 0#8 } none)

/-- R123: `BLK.RD` responds the number zero-extended and changes nothing. -/
def Obligations.BlkRdRespondsNumber : Prop :=
  encode .blkRd = 0x2200#16 ∧ OperandIsIllegal 0x2200#16 ∧ InertWhileFaulted .blkRd ∧
  ∀ s : State, s.engine.fault = .none → exec .blkRd s = .next (answering s (s.engine.blk.setWidth 16))

/-- R120, 90_conflicts C4: a session that starts at block 1 and advances `k` times stands at the number
`(k + 1) mod 256`. -/
def Obligations.NthBlockCarriesNModulo256 : Prop :=
  ∀ (k : Nat) (s : State) (rest : List PortEvent), s.engine.fault = .none → s.engine.blk = 0x01#8 →
    s.inbox = given (List.replicate k .blkInc) ++ rest →
      ∃ t, runSteps k s = .next t ∧ t.inbox = rest ∧ t.engine.blk.toNat = (k + 1) % 256

/-- R124: no step but `BLK.SET`, `BLK.INC` and reset writes `BLK`. -/
def Obligations.BlockNumberIsKept : Prop :=
  ∀ s t : State, step s = .next t → t.engine.blk ≠ s.engine.blk →
    (∃ rest, s.inbox = .rst :: rest) ∨
    ∃ w rest, s.inbox = .cmd w :: rest ∧ (decode w = .ok .blkInc ∨ ∃ b, decode w = .ok (.blkSet b))

/-! ### The framer (42_framer) -/

/-- R133: `PAY.CLR` empties the chunk, writes no byte of `PAY`, and invalidates the frame. -/
def Obligations.PayClrEmptiesChunk : Prop :=
  encode .payClr = 0x3000#16 ∧ OperandIsIllegal 0x3000#16 ∧ InertWhileFaulted .payClr ∧
  ∀ s : State, s.engine.fault = .none →
    exec .payClr s = .next (after s { s.engine with fill := 0#8, fvalid := false, rdptr := 0#8 } none)

/-- R134: below 128 bytes `PAY.PUSH imm8` stores its byte at index `FILL`, counts it, and invalidates the frame; with
`FILL = 128` it raises `PAY_OVERFLOW`. -/
def Obligations.PayPushAppendsByte : Prop :=
  ∀ b : Byte, encode (.payPush b) = 0x3100#16 + b.setWidth 16 ∧ InertWhileFaulted (.payPush b) ∧
  (∀ s : State, s.engine.fault = .none → s.engine.fill.toNat < 128 →
    ∃ t, exec (.payPush b) s = .next t ∧
      readPay t.engine s.engine.fill.toNat = .ok b ∧
      (∀ a, a ≠ s.engine.fill.toNat → readPay t.engine a = readPay s.engine a) ∧
      t.engine.fill.toNat = s.engine.fill.toNat + 1 ∧ t.engine.fvalid = false ∧ t.engine.rdptr = 0#8 ∧
      (∀ a, readFrame t.engine a = readFrame s.engine a) ∧
      t.engine.crc = s.engine.crc ∧ t.engine.blk = s.engine.blk ∧ t.engine.fault = .none ∧
      t.engine.fcmd = s.engine.fcmd ∧ t.inbox = s.inbox ∧ t.resp = none) ∧
  ∀ s : State, s.engine.fault = .none → s.engine.fill = 128#8 →
    exec (.payPush b) s = .next (raised s .payOverflow (0x3100#16 + b.setWidth 16))

/-- R135: with 1 to 128 bytes loaded, `FRM.BUILD` writes the 133 bytes of `frame(BLK, L)`, puts the CRC bytes into
`CRC`, and makes the frame valid from its start; it keeps `BLK`, `PAY` and `FILL`, and does not depend on the old
`CRC`. With `FILL = 0` it raises `EMPTY_BUILD`. -/
def Obligations.FrmBuildAssemblesFrame : Prop :=
  encode .frmBuild = 0x4000#16 ∧ OperandIsIllegal 0x4000#16 ∧ InertWhileFaulted .frmBuild ∧
  (∀ (s : State) (l : List Byte), s.engine.fault = .none → s.engine.fill ≠ 0#8 → readChunk s.engine = .ok l →
    ∃ t, exec .frmBuild s = .next t ∧
      (∀ i, i < 133 → readFrame t.engine i = .ok ((frameOf s.engine.blk l).getD i 0#8)) ∧
      t.engine.crc =
        concatBytes ((frameOf s.engine.blk l).getD 131 0#8) ((frameOf s.engine.blk l).getD 132 0#8) ∧
      t.engine.crc = crc16 (pad l) ∧ t.engine.fvalid = true ∧ t.engine.rdptr = 0#8 ∧
      t.engine.blk = s.engine.blk ∧ t.engine.fill = s.engine.fill ∧
      (∀ a, readPay t.engine a = readPay s.engine a) ∧
      t.engine.fault = .none ∧ t.engine.fcmd = s.engine.fcmd ∧ t.inbox = s.inbox ∧ t.resp = none) ∧
  ∀ s : State, s.engine.fault = .none → s.engine.fill = 0#8 →
    exec .frmBuild s = .next (raised s .emptyBuild 0x4000#16)

/-- R137: `FRM.RD` tests `FVALID = 0`, then `RDPTR = 133`; else it responds the byte at `RDPTR`, zero-extended, and
advances. -/
def Obligations.FrmRdReadsNextByte : Prop :=
  encode .frmRd = 0x4100#16 ∧ OperandIsIllegal 0x4100#16 ∧ InertWhileFaulted .frmRd ∧
  (∀ (s : State) (b : Byte), s.engine.fault = .none → s.engine.fvalid = true →
    readFrame s.engine s.engine.rdptr.toNat = .ok b →
      ∃ p : Byte, p.toNat = s.engine.rdptr.toNat + 1 ∧
        exec .frmRd s = .next (after s { s.engine with rdptr := p } (some (b.setWidth 16)))) ∧
  (∀ s : State, s.engine.fault = .none → s.engine.fvalid = false →
    exec .frmRd s = .next (raised s .frameInvalid 0x4100#16)) ∧
  ∀ s : State, s.engine.fault = .none → s.engine.fvalid = true → s.engine.rdptr = 133#8 →
    exec .frmRd s = .next (raised s .frameUnderrun 0x4100#16)

/-- R138: `FRM.REWIND` sets the read pointer to 0, with or without a valid frame, and changes nothing else. -/
def Obligations.FrmRewindResetsPointer : Prop :=
  encode .frmRewind = 0x4200#16 ∧ OperandIsIllegal 0x4200#16 ∧ InertWhileFaulted .frmRewind ∧
  ∀ s : State, s.engine.fault = .none →
    exec .frmRewind s = .next (after s { s.engine with rdptr := 0#8 } none)

/-- R139: `FRM.PEEK idx8` tests `FVALID = 0`, then `idx8 >= 133`; else it responds the byte at `idx8`, zero-extended,
and changes nothing. -/
def Obligations.FrmPeekReadsIndexedByte : Prop :=
  ∀ x : Byte, encode (.frmPeek x) = 0x4300#16 + x.setWidth 16 ∧ InertWhileFaulted (.frmPeek x) ∧
  (∀ (s : State) (b : Byte), s.engine.fault = .none → s.engine.fvalid = true →
    readFrame s.engine x.toNat = .ok b → exec (.frmPeek x) s = .next (answering s (b.setWidth 16))) ∧
  (∀ s : State, s.engine.fault = .none → s.engine.fvalid = false →
    exec (.frmPeek x) s = .next (raised s .frameInvalid (0x4300#16 + x.setWidth 16))) ∧
  ∀ s : State, s.engine.fault = .none → s.engine.fvalid = true → 133 ≤ x.toNat →
    exec (.frmPeek x) s = .next (raised s .indexRange (0x4300#16 + x.setWidth 16))

/-- R140: `FRM.POS` responds the read pointer, zero-extended, also with no valid frame, and changes nothing. -/
def Obligations.FrmPosRespondsPointer : Prop :=
  encode .frmPos = 0x4400#16 ∧ OperandIsIllegal 0x4400#16 ∧ InertWhileFaulted .frmPos ∧
  ∀ s : State, s.engine.fault = .none → exec .frmPos s = .next (answering s (s.engine.rdptr.setWidth 16))

/-- R131, R130, R86, R53: the frame of 1 to 128 bytes, index by index. -/
def Obligations.FrameLayout : Prop :=
  ∀ (b : Byte) (l : List Byte), 1 ≤ l.length → l.length ≤ 128 →
    (frameOf b l).length = 133 ∧ (frameOf b l)[0]? = some 0x01#8 ∧ (frameOf b l)[1]? = some b ∧
    (frameOf b l)[2]? = some (0xFF#8 - b) ∧
    (∀ i, i < 128 → (frameOf b l)[3 + i]? = some (l.getD i 0x1A#8)) ∧
    (frameOf b l)[131]? = some ((crc16 (pad l)).extractLsb' 8 8) ∧
    (frameOf b l)[132]? = some ((crc16 (pad l)).extractLsb' 0 8)

/-- R132 (c), (e), (f), (g) and R88: the complement, the CRC bytes' independence of the block number, the trailing
pad bytes that do not show, and the residue of a frame. -/
def Obligations.FrameProperties : Prop :=
  (∀ b : Byte, 0xFF#8 - b = ~~~b ∧ b + (0xFF#8 - b) = 0xFF#8 ∧ b ^^^ (0xFF#8 - b) = 0xFF#8) ∧
  ∀ (b b' : Byte) (l : List Byte), 1 ≤ l.length → l.length ≤ 128 →
    (frameOf b l).getD 2 0#8 = 0xFF#8 - (frameOf b l).getD 1 0#8 ∧
    (frameOf b l).drop 3 = (frameOf b' l).drop 3 ∧
    (∀ k, l.length + k ≤ 128 → frameOf b (l ++ List.replicate k 0x1A#8) = frameOf b l) ∧
    crc16 ((frameOf b l).drop 3) = 0x0000#16

/-- R136: rebuilding a valid frame writes the bytes it already holds, and sets the read pointer to 0. -/
def Obligations.RebuildGivesSameFrame : Prop :=
  ∀ s : State, s.Inv → s.engine.fault = .none → s.engine.fvalid = true →
    ∃ t, exec .frmBuild s = .next t ∧ (∀ a, readFrame t.engine a = readFrame s.engine a) ∧
      t.engine.fvalid = true ∧ t.engine.rdptr = 0#8 ∧ t.engine.blk = s.engine.blk

/-- R141, first part: from every non-Faulted state the commands of `LOAD L` and `FRM.BUILD` leave the frame of the
present block number and of the chunk. -/
def Obligations.LoadAndBuildComputeFrame : Prop :=
  ∀ (l : List Byte) (s : State) (rest : List PortEvent), 1 ≤ l.length → l.length ≤ 128 → s.engine.fault = .none →
    s.inbox = given (loadCommands l ++ [.frmBuild]) ++ rest →
      ∃ t, runSteps (l.length + 2) s = .next t ∧ t.inbox = rest ∧ t.engine.fault = .none ∧
        t.engine.fvalid = true ∧ t.engine.rdptr = 0#8 ∧ t.engine.fill.toNat = l.length ∧
        t.engine.blk = s.engine.blk ∧ t.engine.crc = crc16 (pad l) ∧
        ∀ i, i < 133 → readFrame t.engine i = .ok ((frameOf s.engine.blk l).getD i 0#8)

/-- R141, second part, R55 and the source's retry idempotence: after a build or a rewind, the `FRM.RD` commands
respond the frame's bytes in ascending order, with no fault, up to the last, and the frame stays. -/
def Obligations.FrameIsReadInOrder : Prop :=
  ∀ (s : State) (f : List Byte) (n : Nat) (rest : List PortEvent), s.engine.fault = .none → s.engine.fvalid = true →
    s.engine.rdptr = 0#8 → (∀ i, i < 133 → readFrame s.engine i = .ok (f.getD i 0#8)) → n < 133 →
    s.inbox = given (List.replicate (n + 1) .frmRd) ++ rest →
      ∃ p : Byte, p.toNat = n + 1 ∧ runSteps (n + 1) s =
        .next { engine := { s.engine with rdptr := p }, inbox := rest, resp := some ((f.getD n 0#8).setWidth 16) }

/-! ### Frames -/

/-- `NOP`, `STAT.RD`, `FLT.RD`, `CRC.RD`, `BLK.RD` and `FRM.POS` change nothing of the engine, in any state (R59). -/
def Obligations.ReadsChangeNothing : Prop :=
  ∀ (i : Instr) (s t : State), i ∈ [.nop, .statRd, .fltRd, .crcRd, .blkRd, .frmPos] → exec i s = .next t →
    t.engine = s.engine ∧ t.inbox = s.inbox ∧ SameBuffers s t

/-- `CRC.CLR` and `CRC.BYTE` change `CRC` alone: a built frame stays valid (R21, R24). -/
def Obligations.CrcCommandsChangeCrcOnly : Prop :=
  ∀ (i : Instr) (s t : State), (i = .crcClr ∨ ∃ b, i = .crcByte b) → exec i s = .next t →
    t.engine = { s.engine with crc := t.engine.crc } ∧ t.inbox = s.inbox ∧ SameBuffers s t

/-- `BLK.SET` and `BLK.INC` change `BLK`, `FVALID` and `RDPTR` alone (R121, R122). -/
def Obligations.BlkCommandsFrame : Prop :=
  ∀ (i : Instr) (s t : State), (i = .blkInc ∨ ∃ b, i = .blkSet b) → exec i s = .next t →
    t.engine = { s.engine with blk := t.engine.blk, fvalid := t.engine.fvalid, rdptr := t.engine.rdptr } ∧
    t.inbox = s.inbox ∧ SameBuffers s t

/-- `PAY.CLR` changes `FILL`, `FVALID` and `RDPTR` alone; `PAY.PUSH` stores one byte, at index `FILL`, and changes
beside it `FILL`, `FVALID`, `RDPTR` or, where it faults, `FAULT` and `FCMD` (R133, R134). -/
def Obligations.PayCommandsFrame : Prop :=
  (∀ s t : State, exec .payClr s = .next t →
    t.engine = { s.engine with fill := t.engine.fill, fvalid := t.engine.fvalid, rdptr := t.engine.rdptr } ∧
    t.inbox = s.inbox ∧ SameBuffers s t) ∧
  ∀ (b : Byte) (s t : State), exec (.payPush b) s = .next t →
    t.engine.crc = s.engine.crc ∧ t.engine.blk = s.engine.blk ∧ t.engine.frame = s.engine.frame ∧
    t.inbox = s.inbox ∧ (∀ a, a ≠ bufferIndex s.engine.fill → readPay t.engine a = readPay s.engine a) ∧
    (∀ a, readFrame t.engine a = readFrame s.engine a) ∧
    (t.engine.fault = s.engine.fault → t.engine.fcmd = s.engine.fcmd) ∧
    (t.engine.fault ≠ s.engine.fault → SameBuffers s t ∧ t.engine.fill = s.engine.fill ∧
      t.engine.fvalid = s.engine.fvalid ∧ t.engine.rdptr = s.engine.rdptr)

/-- `FRM.BUILD` changes `FRAME`, `CRC`, `FVALID` and `RDPTR`, or `FAULT` and `FCMD` where it faults; `FRM.RD` and
`FRM.REWIND` change `RDPTR`, and `FRM.PEEK` nothing, or `FAULT` and `FCMD` where they fault (R135 to R139). -/
def Obligations.FrmCommandsFrame : Prop :=
  (∀ s t : State, exec .frmBuild s = .next t →
    t.engine.blk = s.engine.blk ∧ t.engine.fill = s.engine.fill ∧ t.inbox = s.inbox ∧
    (∀ a, readPay t.engine a = readPay s.engine a) ∧
    (∀ a, 133 ≤ a → readFrame t.engine a = readFrame s.engine a) ∧
    (t.engine.fault = s.engine.fault → t.engine.fcmd = s.engine.fcmd) ∧
    (t.engine.fault ≠ s.engine.fault → SameBuffers s t ∧ t.engine.crc = s.engine.crc ∧
      t.engine.fvalid = s.engine.fvalid ∧ t.engine.rdptr = s.engine.rdptr)) ∧
  (∀ s t : State, exec .frmRewind s = .next t →
    t.engine = { s.engine with rdptr := t.engine.rdptr } ∧ t.inbox = s.inbox ∧ SameBuffers s t) ∧
  (∀ s t : State, exec .frmRd s = .next t → t.inbox = s.inbox ∧ SameBuffers s t ∧
    (t.engine = { s.engine with rdptr := t.engine.rdptr } ∨
      t.engine = { s.engine with fault := t.engine.fault, fcmd := t.engine.fcmd })) ∧
  ∀ (x : Byte) (s t : State), exec (.frmPeek x) s = .next t → t.inbox = s.inbox ∧ SameBuffers s t ∧
    t.engine = { s.engine with fault := t.engine.fault, fcmd := t.engine.fcmd }

/-- 10_state section 12, over all commands: who writes `CRC`, `PAY`, `FILL`, `FRAME`, `FVALID` and `RDPTR`. In
particular only `FRM.BUILD` sets `FVALID` (R24) or writes `FRAME` (R32). -/
def Obligations.EachItemHasItsWriters : Prop :=
  ∀ (i : Instr) (s t : State), exec i s = .next t →
    (t.engine.crc ≠ s.engine.crc → i.line.mnemonic ∈ [.crcClr, .crcByte, .frmBuild]) ∧
    (t.engine.pay ≠ s.engine.pay → i.line.mnemonic = .payPush) ∧
    (t.engine.fill ≠ s.engine.fill → i.line.mnemonic ∈ [.payClr, .payPush]) ∧
    (t.engine.frame ≠ s.engine.frame → i = .frmBuild) ∧
    (t.engine.fvalid = true → s.engine.fvalid = false → i = .frmBuild) ∧
    (t.engine.fvalid = false → s.engine.fvalid = true →
      i.line.mnemonic ∈ [.blkSet, .blkInc, .payClr, .payPush]) ∧
    (t.engine.rdptr ≠ s.engine.rdptr → i.line.mnemonic ∈
      [.blkSet, .blkInc, .payClr, .payPush, .frmBuild, .frmRd, .frmRewind])

/-! ### Invariants (10_state R34) -/

/-- The reset state meets the invariant. -/
def Obligations.ResetMeetsTheInvariant : Prop := State.reset.Inv ∧ FaultRecorded State.reset.engine

/-- INV1 to INV4, INV6 and the canonical form of the buffers: every step keeps them. -/
def Obligations.StepKeepsTheInvariant : Prop :=
  ∀ s t : State, s.Inv → step s = .next t → t.Inv

/-- From every state that meets the invariant the machine goes on: no step stops in a fault of the model or a
refusal, whatever the host gives (R52: an access out of range is a fault of the engine, which is a next state). -/
def Obligations.StepNeverStops : Prop :=
  ∀ s : State, s.Inv → ∃ t, step s = .next t

/-- R201: every step keeps the agreement of `FAULT` and the word `FCMD` records. -/
def Obligations.FaultRecordAgrees : Prop :=
  ∀ s t : State, FaultRecorded s.engine → step s = .next t → FaultRecorded t.engine

/-- INV7: a valid frame starts with 0x01, holds a number and its complement, and carries the CRC of its payload. -/
def Obligations.ValidFrameIsSelfConsistent : Prop :=
  ∀ e : Engine, e.Inv → e.fvalid = true → ∃ f : List Byte, f.length = 133 ∧
    (∀ i, i < 133 → readFrame e i = .ok (f.getD i 0#8)) ∧
    f.getD 0 0#8 = 0x01#8 ∧ f.getD 1 0#8 = e.blk ∧ f.getD 2 0#8 = 0xFF#8 - f.getD 1 0#8 ∧
    concatBytes (f.getD 131 0#8) (f.getD 132 0#8) = crc16 ((f.drop 3).take 128)

/-- R31, R32, R232: the bytes of `PAY` from `FILL` on, and `FRAME` while `FVALID = 0`, never show: two states that
differ only there give the same response and stay so, whatever the host gives. -/
def Obligations.UnwrittenBytesNeverShow : Prop :=
  ∀ s t : State, Indistinct s t → IndistinctOutcome (step s) (step t)
end

