-- ==== Sys2Proof/Laws/State.lean ====
section
/-! SUPPORT. One lemma per field per update of the state, each true by rfl, so that no proof unfolds an update. -/

namespace Sys2Proof.Machine

/-! ### `invalidateFrame` (10_state R24, R29) -/

@[simp] theorem invalidateFrame_crc (e : Engine) : (invalidateFrame e).crc = e.crc := rfl
@[simp] theorem invalidateFrame_blk (e : Engine) : (invalidateFrame e).blk = e.blk := rfl
@[simp] theorem invalidateFrame_pay (e : Engine) : (invalidateFrame e).pay = e.pay := rfl
@[simp] theorem invalidateFrame_fill (e : Engine) : (invalidateFrame e).fill = e.fill := rfl
@[simp] theorem invalidateFrame_frame (e : Engine) : (invalidateFrame e).frame = e.frame := rfl
@[simp] theorem invalidateFrame_fvalid (e : Engine) : (invalidateFrame e).fvalid = false := rfl
@[simp] theorem invalidateFrame_rdptr (e : Engine) : (invalidateFrame e).rdptr = 0#8 := rfl
@[simp] theorem invalidateFrame_fault (e : Engine) : (invalidateFrame e).fault = e.fault := rfl
@[simp] theorem invalidateFrame_fcmd (e : Engine) : (invalidateFrame e).fcmd = e.fcmd := rfl

/-! ### `writeFrame` (R32) -/

@[simp] theorem writeFrame_crc (e : Engine) (l : List Byte) : (writeFrame e l).crc = e.crc := rfl
@[simp] theorem writeFrame_blk (e : Engine) (l : List Byte) : (writeFrame e l).blk = e.blk := rfl
@[simp] theorem writeFrame_pay (e : Engine) (l : List Byte) : (writeFrame e l).pay = e.pay := rfl
@[simp] theorem writeFrame_fill (e : Engine) (l : List Byte) : (writeFrame e l).fill = e.fill := rfl
@[simp] theorem writeFrame_frame (e : Engine) (l : List Byte) : (writeFrame e l).frame = Memory.ofBytes 0 l := rfl
@[simp] theorem writeFrame_fvalid (e : Engine) (l : List Byte) : (writeFrame e l).fvalid = e.fvalid := rfl
@[simp] theorem writeFrame_rdptr (e : Engine) (l : List Byte) : (writeFrame e l).rdptr = e.rdptr := rfl
@[simp] theorem writeFrame_fault (e : Engine) (l : List Byte) : (writeFrame e l).fault = e.fault := rfl
@[simp] theorem writeFrame_fcmd (e : Engine) (l : List Byte) : (writeFrame e l).fcmd = e.fcmd := rfl

/-! ### `withInbox` -/

@[simp] theorem withInbox_engine (s : State) (rest : List PortEvent) : (withInbox s rest).engine = s.engine := rfl
@[simp] theorem withInbox_inbox (s : State) (rest : List PortEvent) : (withInbox s rest).inbox = rest := rfl
@[simp] theorem withInbox_resp (s : State) (rest : List PortEvent) : (withInbox s rest).resp = s.resp := rfl

/-! ### `after`, `silent`, `answering`, `raised` -/

@[simp] theorem after_engine (s : State) (e : Engine) (r : Option Word) : (after s e r).engine = e := rfl
@[simp] theorem after_inbox (s : State) (e : Engine) (r : Option Word) : (after s e r).inbox = s.inbox := rfl
@[simp] theorem after_resp (s : State) (e : Engine) (r : Option Word) : (after s e r).resp = r := rfl
@[simp] theorem silent_engine (s : State) : (silent s).engine = s.engine := rfl
@[simp] theorem silent_inbox (s : State) : (silent s).inbox = s.inbox := rfl
@[simp] theorem silent_resp (s : State) : (silent s).resp = none := rfl
@[simp] theorem answering_engine (s : State) (v : Word) : (answering s v).engine = s.engine := rfl
@[simp] theorem answering_inbox (s : State) (v : Word) : (answering s v).inbox = s.inbox := rfl
@[simp] theorem answering_resp (s : State) (v : Word) : (answering s v).resp = some v := rfl
@[simp] theorem raised_inbox (s : State) (c : FaultCode) (w : Word) : (raised s c w).inbox = s.inbox := rfl
@[simp] theorem raised_resp (s : State) (c : FaultCode) (w : Word) : (raised s c w).resp = none := rfl
@[simp] theorem raised_engine_crc (s : State) (c : FaultCode) (w : Word) :
    (raised s c w).engine.crc = s.engine.crc := rfl
@[simp] theorem raised_engine_blk (s : State) (c : FaultCode) (w : Word) :
    (raised s c w).engine.blk = s.engine.blk := rfl
@[simp] theorem raised_engine_pay (s : State) (c : FaultCode) (w : Word) :
    (raised s c w).engine.pay = s.engine.pay := rfl
@[simp] theorem raised_engine_fill (s : State) (c : FaultCode) (w : Word) :
    (raised s c w).engine.fill = s.engine.fill := rfl
@[simp] theorem raised_engine_frame (s : State) (c : FaultCode) (w : Word) :
    (raised s c w).engine.frame = s.engine.frame := rfl
@[simp] theorem raised_engine_fvalid (s : State) (c : FaultCode) (w : Word) :
    (raised s c w).engine.fvalid = s.engine.fvalid := rfl
@[simp] theorem raised_engine_rdptr (s : State) (c : FaultCode) (w : Word) :
    (raised s c w).engine.rdptr = s.engine.rdptr := rfl
@[simp] theorem raised_engine_fault (s : State) (c : FaultCode) (w : Word) :
    (raised s c w).engine.fault = c := rfl
@[simp] theorem raised_engine_fcmd (s : State) (c : FaultCode) (w : Word) :
    (raised s c w).engine.fcmd = w := rfl

/-! ### Reset (10_state R35) -/

@[simp] theorem engineReset_crc : Engine.reset.crc = 0x0000#16 := rfl
@[simp] theorem engineReset_blk : Engine.reset.blk = 0x01#8 := rfl
@[simp] theorem engineReset_pay : Engine.reset.pay = [] := rfl
@[simp] theorem engineReset_fill : Engine.reset.fill = 0#8 := rfl
@[simp] theorem engineReset_frame : Engine.reset.frame = [] := rfl
@[simp] theorem engineReset_fvalid : Engine.reset.fvalid = false := rfl
@[simp] theorem engineReset_rdptr : Engine.reset.rdptr = 0#8 := rfl
@[simp] theorem engineReset_fault : Engine.reset.fault = .none := rfl
@[simp] theorem engineReset_fcmd : Engine.reset.fcmd = 0x0000#16 := rfl
@[simp] theorem stateReset_engine : State.reset.engine = Engine.reset := rfl
@[simp] theorem stateReset_inbox : State.reset.inbox = [] := rfl
@[simp] theorem stateReset_resp : State.reset.resp = none := rfl

end Sys2Proof.Machine
end

