-- ==== Sys2Proof/Laws/Memory.lean ====
section
/-! SUPPORT. The laws of a buffer (20_memory R50, R57): a read after a write, and the canonical form every operation
keeps. -/

namespace Sys2Proof.Machine

theorem memory_read_write_same (m : Memory) (a : Nat) (b : Byte) : (m.write a b).read a = some b := by
  induction m with
  | nil => simp [Memory.write, Memory.read]
  | cons c m ih =>
    obtain ⟨k, v⟩ := c
    simp only [Memory.write]
    split
    · simp [Memory.read]
    · split
      · simp [Memory.read]
      · rename_i h
        simp [Memory.read, ih, Ne.symm h]

theorem memory_read_write_other (m : Memory) (a a' : Nat) (b : Byte) (h : a' ≠ a) :
    (m.write a b).read a' = m.read a' := by
  induction m with
  | nil => simp [Memory.write, Memory.read, Ne.symm h]
  | cons c m ih =>
    obtain ⟨k, v⟩ := c
    simp only [Memory.write]
    split
    · simp [Memory.read, Ne.symm h]
    · split
      · rename_i hk
        subst hk
        simp [Memory.read, Ne.symm h]
      · simp [Memory.read, ih]

/-- A write keeps the canonical form, from any lower bound the index meets. -/
theorem memory_wfFrom_write {size : Nat} (m : Memory) (lo a : Nat) (b : Byte) (hm : Memory.wfFrom size lo m = true)
    (hlo : lo ≤ a) (ha : a < size) : Memory.wfFrom size lo (m.write a b) = true := by
  induction m generalizing lo with
  | nil => simp [Memory.write, Memory.wfFrom, hlo, ha]
  | cons c m ih =>
    obtain ⟨k, v⟩ := c
    simp only [Memory.wfFrom, Bool.and_eq_true, decide_eq_true_eq] at hm
    obtain ⟨⟨h1, h2⟩, h3⟩ := hm
    simp only [Memory.write]
    split
    · rename_i hak
      simp [Memory.wfFrom, hlo, ha, h2, h3, Nat.succ_le_of_lt hak]
    · split
      · rename_i hak
        subst hak
        simp [Memory.wfFrom, hlo, ha, h3]
      · rename_i h4 h5
        simp [Memory.wfFrom, h1, h2, ih (k + 1) h3 (by omega)]

/-- A write inside the buffer keeps its canonical form. -/
theorem memory_wf_write {size : Nat} (m : Memory) (a : Nat) (b : Byte) (hm : m.wf size = true) (ha : a < size) :
    (m.write a b).wf size = true :=
  memory_wfFrom_write m 0 a b hm (Nat.zero_le a) ha

theorem memory_wfFrom_ofBytes {size : Nat} (bs : List Byte) (a : Nat) (h : a + bs.length ≤ size) :
    Memory.wfFrom size a (Memory.ofBytes a bs) = true := by
  induction bs generalizing a with
  | nil => rfl
  | cons b bs ih =>
    simp only [List.length_cons] at h
    simp only [Memory.ofBytes, Memory.wfFrom, le_refl, decide_true, Bool.true_and, Bool.and_eq_true,
      decide_eq_true_eq]
    exact ⟨by omega, ih (a + 1) (by omega)⟩

/-- A buffer written as a whole is in canonical form. -/
theorem memory_wf_ofBytes {size : Nat} (bs : List Byte) (h : bs.length ≤ size) :
    (Memory.ofBytes 0 bs).wf size = true :=
  memory_wfFrom_ofBytes bs 0 (by omega)

theorem memory_read_ofBytes (bs : List Byte) (a i : Nat) : (Memory.ofBytes a bs).read (a + i) = bs[i]? := by
  induction bs generalizing a i with
  | nil => simp [Memory.ofBytes, Memory.read]
  | cons b bs ih =>
    cases i with
    | zero => simp [Memory.ofBytes, Memory.read]
    | succ i =>
      have := ih (a + 1) i
      rw [Nat.add_right_comm] at this
      have hne : ¬ a = a + i + 1 := by omega
      simpa [Memory.ofBytes, Memory.read, ← Nat.add_assoc, hne] using this

/-- A buffer in canonical form from `lo` on lists nothing below `lo`. -/
theorem memory_read_none_below {size : Nat} (m : Memory) (lo a : Nat) (hm : Memory.wfFrom size lo m = true)
    (ha : a < lo) : m.read a = none := by
  induction m generalizing lo with
  | nil => rfl
  | cons c m ih =>
    obtain ⟨k, v⟩ := c
    simp only [Memory.wfFrom, Bool.and_eq_true, decide_eq_true_eq] at hm
    have hk : ¬ k = a := by omega
    simp [Memory.read, hk, ih (k + 1) hm.2 (by omega)]

end Sys2Proof.Machine
end

