-- ==== Sys2Proof/Laws/Ops.lean ====
section
/-! SUPPORT. For each shared operation, once, everything it can do: what a proof cites instead of unfolding it. -/

namespace Sys2Proof.Machine

/-! ### How a step completes -/

theorem faulted_eq_true (e : Engine) : faulted e = true ↔ e.fault ≠ .none := by simp [faulted]

theorem unlessFaulted_of_running {s : State} (h : s.engine.fault = .none) (k : Host.Outcome State Fault Refusal) :
    unlessFaulted s k = k := by simp [unlessFaulted, faulted, h]

theorem unlessFaulted_of_faulted {s : State} (h : s.engine.fault ≠ .none) (k : Host.Outcome State Fault Refusal) :
    unlessFaulted s k = .next (silent s) := by simp [unlessFaulted, faulted, h, complete, silent]

/-- R206, R207: a command that tests Faulted either does nothing or goes on as its own rule says. -/
theorem unlessFaulted_cases {s t : State} {k : Host.Outcome State Fault Refusal} (h : unlessFaulted s k = .next t) :
    (s.engine.fault ≠ .none ∧ t = silent s) ∨ (s.engine.fault = .none ∧ k = .next t) := by
  by_cases hf : s.engine.fault = .none
  · exact .inr ⟨hf, by rwa [unlessFaulted_of_running hf] at h⟩
  · rw [unlessFaulted_of_faulted hf] at h
    exact .inl ⟨hf, (Host.Outcome.next.inj h).symm⟩

theorem complete_cases {e : Engine} {s t : State} (h : complete e s = .next t) :
    t = { s with engine := e, resp := none } := (Host.Outcome.next.inj h).symm

theorem completeWith_cases {v : Word} {e : Engine} {s t : State} (h : completeWith v e s = .next t) :
    t = { s with engine := e, resp := some v } := (Host.Outcome.next.inj h).symm

theorem raiseFault_eq (c : FaultCode) (w : Word) (s : State) : raiseFault c w s = .next (raised s c w) := rfl

/-- An access answers a next state only when it answered a value. -/
theorem andThen_cases {α : Type} {x : Except Fault α} {k : α → Host.Outcome State Fault Refusal} {t : State}
    (h : andThen x k = .next t) : ∃ a, x = .ok a ∧ k a = .next t := by
  cases x with
  | ok a => exact ⟨a, rfl, h⟩
  | error f => cases h

/-! ### Reading and writing the buffers -/

theorem readBuffer_cases {size : Nat} {f g : Fault} {m : Memory} {i : Nat} {b : Byte}
    (h : readBuffer size f g m i = .ok b) : i < size ∧ m.read i = some b := by
  unfold readBuffer at h
  split at h
  · rename_i hi
    split at h
    · rename_i hb
      exact ⟨hi, by rw [hb]; exact congrArg some (Except.ok.inj h)⟩
    · cases h
  · cases h

theorem readPay_cases {e : Engine} {i : Nat} {b : Byte} (h : readPay e i = .ok b) :
    i < 128 ∧ e.pay.read i = some b := readBuffer_cases h

theorem readFrame_cases {e : Engine} {i : Nat} {b : Byte} (h : readFrame e i = .ok b) :
    i < 133 ∧ e.frame.read i = some b := readBuffer_cases h

/-- `readPay` depends on `PAY` alone. -/
theorem readPay_congr {e f : Engine} (h : e.pay = f.pay) (i : Nat) : readPay e i = readPay f i := by
  simp [readPay, h]

/-- `readFrame` depends on `FRAME` alone. -/
theorem readFrame_congr {e f : Engine} (h : e.frame = f.frame) (i : Nat) : readFrame e i = readFrame f i := by
  simp [readFrame, h]

theorem writePay_of_lt {e : Engine} {i : Nat} (h : i < 128) (b : Byte) :
    writePay e i b = .ok { e with pay := e.pay.write i b } := by simp [writePay, Config.payloadLen, h]

theorem writePay_cases {e f : Engine} {i : Nat} {b : Byte} (h : writePay e i b = .ok f) :
    i < 128 ∧ f = { e with pay := e.pay.write i b } := by
  unfold writePay at h
  split at h
  · rename_i hi
    exact ⟨hi, (Except.ok.inj h).symm⟩
  · cases h

/-- The byte just written reads back, and every other byte reads as before. -/
theorem readPay_write {e f : Engine} {i : Nat} {b : Byte} (hi : i < 128) (hf : f.pay = e.pay.write i b) (j : Nat) :
    readPay f j = if j = i then .ok b else readPay e j := by
  split
  · rename_i hj
    subst hj
    simp [readPay, readBuffer, Config.payloadLen, hi, hf, memory_read_write_same]
  · rename_i hj
    simp [readPay, readBuffer, hf, memory_read_write_other _ _ _ _ hj]

/-- A frame of 133 bytes written as a whole reads back byte by byte. -/
theorem readFrame_ofBytes {e : Engine} {l : List Byte} (hl : l.length = 133) (he : e.frame = Memory.ofBytes 0 l)
    (i : Nat) : readFrame e i = if i < 133 then .ok (l.getD i 0#8) else .error .frameOutside := by
  unfold readFrame readBuffer
  by_cases hi : i < 133
  · have hr := memory_read_ofBytes l 0 i
    rw [Nat.zero_add, List.getElem?_eq_getElem (by omega)] at hr
    simp [Config.frameLen, hi, he, hr, List.getD_eq_getElem?_getD, hl]
  · simp [Config.frameLen, hi]

/-- A run of reads answers the bytes in order, when each is there. -/
theorem readPayRun_eq_ok (e : Engine) (i n : Nat) (l : List Byte) :
    readPayRun e.pay i n = .ok l ↔ l.length = n ∧ ∀ k, (h : k < l.length) → readPay e (i + k) = .ok l[k] := by
  induction n generalizing i l with
  | zero => cases l <;> simp [readPayRun]
  | succ n ih =>
    simp only [readPayRun]
    rw [show readBuffer Config.payloadLen .payOutside .payUnwritten e.pay i = readPay e i from rfl]
    cases hb : readPay e i with
    | error f =>
      constructor
      · intro h; cases h
      · rintro ⟨hl, h⟩
        have := h 0 (by omega)
        simp [hb] at this
    | ok b =>
      cases hbs : readPayRun e.pay (i + 1) n with
      | error f =>
        constructor
        · intro h; cases h
        · rintro ⟨hl, h⟩
          cases l with
          | nil => simp at hl
          | cons c l =>
            have : readPayRun e.pay (i + 1) n = .ok l := (ih (i + 1) l).2 ⟨by simpa using hl, fun k hk => by
              have := h (k + 1) (by simpa using hk)
              simpa [Nat.add_comm, Nat.add_left_comm] using this⟩
            rw [hbs] at this
            cases this
      | ok bs =>
        have hi := (ih (i + 1) bs).1 hbs
        constructor
        · intro h
          cases h
          refine ⟨by simp [hi.1], fun k hk => ?_⟩
          cases k with
          | zero => simpa using hb
          | succ k =>
            have := hi.2 k (by simpa using hk)
            simpa [Nat.add_comm, Nat.add_left_comm] using this
        · rintro ⟨hl, h⟩
          cases l with
          | nil => simp at hl
          | cons c l =>
            have h0 := h 0 (by simp)
            have : readPayRun e.pay (i + 1) n = .ok l := (ih (i + 1) l).2 ⟨by simpa using hl, fun k hk => by
              have := h (k + 1) (by simpa using hk)
              simpa [Nat.add_comm, Nat.add_left_comm] using this⟩
            rw [hbs] at this
            simp only [Nat.add_zero, List.getElem_cons_zero, hb] at h0
            cases h0
            cases this
            rfl

/-- The chunk: `FILL` bytes, byte `k` of it being `PAY[k]`. -/
theorem readChunk_eq_ok (e : Engine) (l : List Byte) :
    readChunk e = .ok l ↔ l.length = e.fill.toNat ∧ ∀ k, (h : k < l.length) → readPay e k = .ok l[k] := by
  simpa [readChunk, bufferIndex] using readPayRun_eq_ok e 0 e.fill.toNat l

/-- The chunk depends on `PAY` and `FILL` alone, and on `PAY` below `FILL` only. -/
theorem readPayRun_congr {e f : Engine} (i n : Nat) (h : ∀ k, k < n → readPay e (i + k) = readPay f (i + k)) :
    readPayRun e.pay i n = readPayRun f.pay i n := by
  induction n generalizing i with
  | zero => rfl
  | succ n ih =>
    have h0 := h 0 (by omega)
    simp only [Nat.add_zero] at h0
    have h1 := ih (i + 1) fun k hk => by
      have := h (k + 1) (by omega)
      simpa [Nat.add_comm, Nat.add_left_comm] using this
    unfold readPay at h0
    simp only [readPayRun, h0, h1]

theorem readChunk_congr {e f : Engine} (hfill : e.fill = f.fill)
    (h : ∀ k, k < e.fill.toNat → readPay e k = readPay f k) : readChunk e = readChunk f := by
  unfold readChunk
  rw [← hfill]
  exact readPayRun_congr 0 _ fun k hk => by simpa using h k hk

/-! ### Taking the next event -/

/-- Everything a step can do: idle, a reset, a command executed, or an illegal word. -/
theorem step_cases {s t : State} (h : step s = .next t) :
    (s.inbox = [] ∧ t = s) ∨
    (∃ rest, s.inbox = .rst :: rest ∧ t = { s with engine := Engine.reset, inbox := rest, resp := none }) ∨
    (∃ w rest i, s.inbox = .cmd w :: rest ∧ decode w = .ok i ∧ exec i { s with inbox := rest } = .next t) ∨
    (∃ w rest r, s.inbox = .cmd w :: rest ∧ decode w = .error r ∧ takeIllegal w { s with inbox := rest } = .next t) := by
  unfold step fetch at h
  rcases hin : s.inbox with _ | ⟨_ | _, rest⟩
  · simp only [hin, takeIdle] at h
    exact .inl ⟨rfl, (Host.Outcome.next.inj h).symm⟩
  · rename_i w
    simp only [hin] at h
    cases hd : decode w with
    | ok i =>
      simp only [hd] at h
      exact .inr (.inr (.inl ⟨w, rest, i, rfl, hd, h⟩))
    | error r =>
      simp only [hd] at h
      exact .inr (.inr (.inr ⟨w, rest, r, rfl, hd, h⟩))
  · simp only [hin, takeReset, complete, withInbox] at h
    exact .inr (.inl ⟨rest, rfl, (Host.Outcome.next.inj h).symm⟩)

/-- A run takes its first step and goes on from there. -/
theorem runSteps_succ {s t : State} (h : step s = .next t) (k : Nat) : runSteps (k + 1) s = runSteps k t := by
  simp [runSteps, h]

/-- A run of `j` steps and then `k` more. -/
theorem runSteps_add {s t : State} {j : Nat} (h : runSteps j s = .next t) (k : Nat) :
    runSteps (j + k) s = runSteps k t := by
  induction j generalizing s with
  | zero =>
    cases h
    rw [Nat.zero_add]
  | succ j ih =>
    rw [Nat.add_right_comm]
    cases hs : step s with
    | next u =>
      rw [runSteps_succ hs] at h ⊢
      exact ih h
    | fault f => simp [runSteps, hs] at h
    | refused r => simp [runSteps, hs] at h

/-- An illegal word either does nothing, while Faulted, or raises `ILLEGAL_CMD` (R202, R207). -/
theorem takeIllegal_cases {w : Word} {s t : State} (h : takeIllegal w s = .next t) :
    (s.engine.fault ≠ .none ∧ t = silent s) ∨ (s.engine.fault = .none ∧ t = raised s .illegalCmd w) := by
  rcases unlessFaulted_cases h with h | ⟨hf, h⟩
  · exact .inl h
  · exact .inr ⟨hf, (Host.Outcome.next.inj h).symm⟩

end Sys2Proof.Machine
end

