-- ==== Sys2Proof/Laws/Exec.lean ====
section
/-! SUPPORT. For each command, once, everything it can do when it answers a next state: it was frozen by a fault, it
raised one, or it had the effect of its rule. Whole-machine proofs cite these and unfold no meaning. -/

namespace Sys2Proof.Machine

/-- The engine after a byte is pushed (42_framer R134). -/
def pushed (e : Engine) (b : Byte) : Engine :=
  invalidateFrame { e with pay := e.pay.write e.fill.toNat b, fill := e.fill + 1#8 }

/-- The engine after the frame of the chunk `l` is built (R135). -/
def built (e : Engine) (l : List Byte) : Engine :=
  { writeFrame e (frameOf e.blk l) with crc := crc16 (pad l), fvalid := true, rdptr := 0#8 }

/-- A command that only completes with the engine `e`. -/
theorem unlessFaulted_complete_cases {e : Engine} {s t : State} (h : unlessFaulted s (complete e s) = .next t) :
    (s.engine.fault ≠ .none ∧ t = silent s) ∨
    (s.engine.fault = .none ∧ t = after s e none) := by
  rcases unlessFaulted_cases h with h | ⟨hf, h⟩
  · exact .inl h
  · exact .inr ⟨hf, complete_cases h⟩

/-- A command that only responds. -/
theorem unlessFaulted_completeWith_cases {v : Word} {e : Engine} {s t : State}
    (h : unlessFaulted s (completeWith v e s) = .next t) :
    (s.engine.fault ≠ .none ∧ t = silent s) ∨
    (s.engine.fault = .none ∧ t = after s e (some v)) := by
  rcases unlessFaulted_cases h with h | ⟨hf, h⟩
  · exact .inl h
  · exact .inr ⟨hf, completeWith_cases h⟩

theorem execPayPush_cases {b : Byte} {s t : State} (h : execPayPush b s = .next t) :
    (s.engine.fault ≠ .none ∧ t = silent s) ∨
    (s.engine.fault = .none ∧ s.engine.fill = 128#8 ∧ t = raised s .payOverflow (encode (.payPush b))) ∨
    (s.engine.fault = .none ∧ s.engine.fill.toNat < 128 ∧
      t = after s (pushed s.engine b) none) := by
  rcases unlessFaulted_cases h with h | ⟨hf, h⟩
  · exact .inl h
  · split at h
    · rename_i hfull
      exact .inr (.inl ⟨hf, hfull, (Host.Outcome.next.inj h).symm⟩)
    · obtain ⟨e, he, h⟩ := andThen_cases h
      obtain ⟨hlt, rfl⟩ := writePay_cases he
      exact .inr (.inr ⟨hf, hlt, complete_cases h⟩)

theorem execFrmBuild_cases {s t : State} (h : execFrmBuild s = .next t) :
    (s.engine.fault ≠ .none ∧ t = silent s) ∨
    (s.engine.fault = .none ∧ s.engine.fill = 0#8 ∧ t = raised s .emptyBuild (encode .frmBuild)) ∨
    (s.engine.fault = .none ∧ s.engine.fill ≠ 0#8 ∧ ∃ l, readChunk s.engine = .ok l ∧
      t = after s (built s.engine l) none) := by
  rcases unlessFaulted_cases h with h | ⟨hf, h⟩
  · exact .inl h
  · split at h
    · rename_i hz
      exact .inr (.inl ⟨hf, hz, (Host.Outcome.next.inj h).symm⟩)
    · rename_i hz
      obtain ⟨l, hl, h⟩ := andThen_cases h
      exact .inr (.inr ⟨hf, hz, l, hl, complete_cases h⟩)

theorem execFrmRd_cases {s t : State} (h : execFrmRd s = .next t) :
    (s.engine.fault ≠ .none ∧ t = silent s) ∨
    (s.engine.fault = .none ∧ s.engine.fvalid = false ∧ t = raised s .frameInvalid (encode .frmRd)) ∨
    (s.engine.fault = .none ∧ s.engine.fvalid = true ∧ s.engine.rdptr = 133#8 ∧
      t = raised s .frameUnderrun (encode .frmRd)) ∨
    (s.engine.fault = .none ∧ s.engine.fvalid = true ∧ s.engine.rdptr ≠ 133#8 ∧
      ∃ b, readFrame s.engine s.engine.rdptr.toNat = .ok b ∧
        t = after s { s.engine with rdptr := s.engine.rdptr + 1#8 } (some (zext16 b))) := by
  rcases unlessFaulted_cases h with h | ⟨hf, h⟩
  · exact .inl h
  · split at h
    · rename_i hv
      exact .inr (.inl ⟨hf, hv, (Host.Outcome.next.inj h).symm⟩)
    · rename_i hv
      have hv : s.engine.fvalid = true := by simpa using hv
      split at h
      · rename_i hp
        exact .inr (.inr (.inl ⟨hf, hv, hp, (Host.Outcome.next.inj h).symm⟩))
      · rename_i hp
        obtain ⟨b, hb, h⟩ := andThen_cases h
        exact .inr (.inr (.inr ⟨hf, hv, hp, b, hb, completeWith_cases h⟩))

theorem execFrmPeek_cases {x : Byte} {s t : State} (h : execFrmPeek x s = .next t) :
    (s.engine.fault ≠ .none ∧ t = silent s) ∨
    (s.engine.fault = .none ∧ s.engine.fvalid = false ∧ t = raised s .frameInvalid (encode (.frmPeek x))) ∨
    (s.engine.fault = .none ∧ s.engine.fvalid = true ∧ 133 ≤ x.toNat ∧
      t = raised s .indexRange (encode (.frmPeek x))) ∨
    (s.engine.fault = .none ∧ s.engine.fvalid = true ∧ x.toNat < 133 ∧
      ∃ b, readFrame s.engine x.toNat = .ok b ∧ t = answering s (zext16 b)) := by
  rcases unlessFaulted_cases h with h | ⟨hf, h⟩
  · exact .inl h
  · split at h
    · rename_i hv
      exact .inr (.inl ⟨hf, hv, (Host.Outcome.next.inj h).symm⟩)
    · rename_i hv
      have hv : s.engine.fvalid = true := by simpa using hv
      split at h
      · rename_i hp
        exact .inr (.inr (.inl ⟨hf, hv, hp, (Host.Outcome.next.inj h).symm⟩))
      · rename_i hp
        obtain ⟨b, hb, h⟩ := andThen_cases h
        exact .inr (.inr (.inr ⟨hf, hv, Nat.lt_of_not_le hp, b, hb, completeWith_cases h⟩))

/-- The effect of each command's own rule on the engine and the response, from a state in which it raises no fault. -/
def Effect (i : Instr) (s t : State) : Prop :=
  match i with
  | .nop => t = silent s
  | .statRd => t = answering s (statusWord s.engine)
  | .fltRd => t = answering s s.engine.fcmd
  | .crcClr => t = after s { s.engine with crc := 0x0000#16 } none
  | .crcByte b => t = after s { s.engine with crc := crcByte s.engine.crc b } none
  | .crcRd => t = answering s s.engine.crc
  | .blkSet b => t = after s (invalidateFrame { s.engine with blk := b }) none
  | .blkInc => t = after s (invalidateFrame { s.engine with blk := s.engine.blk + 1#8 }) none
  | .blkRd => t = answering s (zext16 s.engine.blk)
  | .payClr => t = after s (invalidateFrame { s.engine with fill := 0#8 }) none
  | .payPush b => s.engine.fill.toNat < 128 ∧
      t = after s (pushed s.engine b) none
  | .frmBuild => s.engine.fill ≠ 0#8 ∧ ∃ l, readChunk s.engine = .ok l ∧
      t = after s (built s.engine l) none
  | .frmRd => s.engine.fvalid = true ∧ s.engine.rdptr ≠ 133#8 ∧
      ∃ b, readFrame s.engine s.engine.rdptr.toNat = .ok b ∧
        t = after s { s.engine with rdptr := s.engine.rdptr + 1#8 } (some (zext16 b))
  | .frmRewind => t = after s { s.engine with rdptr := 0#8 } none
  | .frmPeek x => s.engine.fvalid = true ∧ x.toNat < 133 ∧
      ∃ b, readFrame s.engine x.toNat = .ok b ∧ t = answering s (zext16 b)
  | .frmPos => t = answering s (zext16 s.engine.rdptr)

/-- The condition under which a command raises a fault of its own (60_exceptions R201, R206). -/
def Raises (i : Instr) (e : Engine) : FaultCode → Prop
  | .payOverflow => ∃ b, i = .payPush b ∧ e.fill = 128#8
  | .emptyBuild => i = .frmBuild ∧ e.fill = 0#8
  | .frameInvalid => (i = .frmRd ∨ ∃ x, i = .frmPeek x) ∧ e.fvalid = false
  | .frameUnderrun => i = .frmRd ∧ e.fvalid = true ∧ e.rdptr = 133#8
  | .indexRange => ∃ x, i = .frmPeek x ∧ e.fvalid = true ∧ 133 ≤ x.toNat
  | .none | .illegalCmd => False

/-- Everything a command can do: nothing while Faulted, its effect, or raise one of its faults. -/
theorem exec_cases {i : Instr} {s t : State} (h : exec i s = .next t) :
    (s.engine.fault ≠ .none ∧ t = silent s) ∨
    ((s.engine.fault = .none ∨ i = .nop ∨ i = .statRd ∨ i = .fltRd) ∧ Effect i s t) ∨
    (s.engine.fault = .none ∧ ∃ c, Raises i s.engine c ∧ t = raised s c (encode i)) := by
  cases i with
  | nop => exact .inr (.inl ⟨.inr (.inl rfl), complete_cases h⟩)
  | statRd => exact .inr (.inl ⟨.inr (.inr (.inl rfl)), completeWith_cases h⟩)
  | fltRd => exact .inr (.inl ⟨.inr (.inr (.inr rfl)), completeWith_cases h⟩)
  | crcClr | crcByte | blkSet | blkInc | payClr | frmRewind =>
    rcases unlessFaulted_complete_cases h with h | ⟨hf, h⟩
    · exact .inl h
    · exact .inr (.inl ⟨.inl hf, h⟩)
  | crcRd | blkRd | frmPos =>
    rcases unlessFaulted_completeWith_cases h with h | ⟨hf, h⟩
    · exact .inl h
    · exact .inr (.inl ⟨.inl hf, h⟩)
  | payPush b =>
    rcases execPayPush_cases h with h | ⟨hf, hz, h⟩ | ⟨hf, hlt, h⟩
    · exact .inl h
    · exact .inr (.inr ⟨hf, .payOverflow, ⟨b, rfl, hz⟩, h⟩)
    · exact .inr (.inl ⟨.inl hf, hlt, h⟩)
  | frmBuild =>
    rcases execFrmBuild_cases h with h | ⟨hf, hz, h⟩ | ⟨hf, hz, h⟩
    · exact .inl h
    · exact .inr (.inr ⟨hf, .emptyBuild, ⟨rfl, hz⟩, h⟩)
    · exact .inr (.inl ⟨.inl hf, hz, h⟩)
  | frmRd =>
    rcases execFrmRd_cases h with h | ⟨hf, hv, h⟩ | ⟨hf, hv, hp, h⟩ | ⟨hf, hv, hp, h⟩
    · exact .inl h
    · exact .inr (.inr ⟨hf, .frameInvalid, ⟨.inl rfl, hv⟩, h⟩)
    · exact .inr (.inr ⟨hf, .frameUnderrun, ⟨rfl, hv, hp⟩, h⟩)
    · exact .inr (.inl ⟨.inl hf, hv, hp, h⟩)
  | frmPeek x =>
    rcases execFrmPeek_cases h with h | ⟨hf, hv, h⟩ | ⟨hf, hv, hp, h⟩ | ⟨hf, hv, hp, h⟩
    · exact .inl h
    · exact .inr (.inr ⟨hf, .frameInvalid, ⟨.inr ⟨x, rfl⟩, hv⟩, h⟩)
    · exact .inr (.inr ⟨hf, .indexRange, ⟨x, rfl, hv, hp⟩, h⟩)
    · exact .inr (.inl ⟨.inl hf, hv, hp, h⟩)

end Sys2Proof.Machine
end

