-- ==== Sys2Proof/Laws/Crc.lean ====
section
/-! SUPPORT. The small lemmas of the CRC functions and of the frame (40_crc R101 to R103, 42_framer R130, R131). -/

namespace Sys2Proof.Machine

@[simp] theorem evaluated_eq {α : Type} (c : Word) (k : Word → α) : evaluated c k = k c := by
  unfold evaluated
  split
  · rename_i h
    exact congrArg k (BitVec.eq_of_toNat_eq (by simp [h]))
  · rename_i n h
    exact congrArg k (BitVec.eq_of_toNat_eq (by rw [show n + 1 = c.toNat from h.symm]; simp))

@[simp] theorem crcShifts_zero (c : Word) : crcShifts 0 c = c := rfl

@[simp] theorem crcShifts_succ (n : Nat) (c : Word) : crcShifts (n + 1) c = crcShifts n (crcShift c) := by
  simp [crcShifts]

@[simp] theorem crcFold_nil (c : Word) : crcFold c [] = c := rfl

/-- R103: one byte of the list is one byte step. -/
@[simp] theorem crcFold_cons (c : Word) (b : Byte) (bs : List Byte) :
    crcFold c (b :: bs) = crcFold (crcByte c b) bs := by
  simp [crcFold]

/-- R130: the padded payload of a chunk of at most 128 bytes has 128 bytes. -/
theorem pad_length (l : List Byte) (h : l.length ≤ 128) : (pad l).length = 128 := by
  simp [pad, Config.payloadLen]
  omega

/-- R131: the frame's parts: three header bytes, the padded payload, two CRC bytes. -/
theorem frameOf_eq (b : Byte) (l : List Byte) :
    frameOf b l = [0x01#8, b, 0xFF#8 - b] ++ pad l ++ [highByte (crc16 (pad l)), lowByte (crc16 (pad l))] := rfl

/-- R15, R53: a 16-bit value is its high byte and its low byte. -/
theorem concatBytes_high_low (c : Word) : concatBytes (highByte c) (lowByte c) = c := by
  apply BitVec.eq_of_toNat_eq
  have := c.isLt
  unfold concatBytes
  rw [BitVec.toNat_append, ← Nat.shiftLeft_add_eq_or_of_lt (lowByte c).isLt]
  simp [highByte, lowByte, Nat.shiftRight_eq_div_pow, Nat.shiftLeft_eq]
  omega

/-- A chunk that can be read has at most 128 bytes (R50). -/
theorem readChunk_length {e : Engine} {l : List Byte} (h : readChunk e = .ok l) : l.length ≤ 128 := by
  by_contra hl
  have := (readPay_cases (((readChunk_eq_ok e l).1 h).2 128 (by omega))).1
  omega

end Sys2Proof.Machine
end

