-- ==== Sys2Proof/Laws/Encoding.lean ====
section
/-! SUPPORT. The small lemmas of the encoding (30_encoding R70, R74, R75). -/

namespace Sys2Proof

/-- Every command is well-formed: its operand is typed as a byte. -/
theorem wellFormed_all (i : Instr) : i.wellFormed = true := by
  cases i <;> simp [Instr.wellFormed, Line.wellFormed, Instr.line, Mnemonic.format] <;> exact BitVec.isLt _

/-- R56: a word is its opcode and its operand. -/
theorem word_toNat (w : Word) : w.toNat = (cmdOpcode w).toNat * 256 + (cmdOperand w).toNat := by
  have := w.isLt
  simp [cmdOpcode, cmdOperand, Nat.shiftRight_eq_div_pow]
  omega

/-- The mask of a format Z row tests the whole word. -/
theorem and_mask_z (w : Word) : w &&& 0xFFFF#16 = w := BitVec.and_allOnes (x := w)

/-- The mask of a format I row drops the operand. -/
theorem and_mask_i (w : Word) : w &&& 0xFF00#16 = w - (cmdOperand w).setWidth 16 := by
  apply BitVec.eq_of_toNat_eq
  have h : (w &&& 0xFF00#16) = (w >>> 8) <<< 8 := by
    ext i hi
    simp only [BitVec.getElem_and, BitVec.getElem_shiftLeft]
    interval_cases i <;> simp
  rw [h]
  have := w.isLt
  simp [cmdOperand, BitVec.toNat_sub, Nat.shiftRight_eq_div_pow, Nat.shiftLeft_eq]
  omega

/-- Everything `decode` can answer for a command: some row of the table matches, and it is that row's command. -/
theorem decode_cases {w : Word} {i : Instr} (h : decode w = .ok i) :
    ∃ r ∈ opcodeTable, rowMatches w r = true ∧ i = r.mnemonic.command (cmdOperand w) := by
  unfold decode at h
  split at h
  · rename_i r hr
    exact ⟨r, List.mem_of_find?_eq_some hr, List.find?_some hr, (Except.ok.inj h).symm⟩
  · cases h

/-- A word is rejected exactly when no row of the table matches. -/
theorem decode_error_iff (w : Word) : (∃ r, decode w = .error r) ↔ ∀ r ∈ opcodeTable, rowMatches w r = false := by
  unfold decode
  constructor
  · rintro ⟨r, h⟩
    split at h
    · cases h
    · rename_i hn
      simpa using List.find?_eq_none.1 hn
  · intro h
    rw [List.find?_eq_none.2 (by simpa using h)]
    exact ⟨_, rfl⟩

end Sys2Proof
end

