-- ==== Sys2Proof/Laws/PerInstr.lean ====
section
/-! SUPPORT. The per-instruction family `AsmRoundTrip`: the line that writes a command down (30_encoding R78) is
well-formed and assembles to the command. -/

namespace Sys2Proof.Laws.AsmRoundTrip

/-- R78: the command's line is well-formed and names the command. -/
def Statement (i : Instr) : Prop := i.wellFormed = true ∧ i.line.assemble = some i

/-- A format I line gives its operand back. -/
theorem assemble_operand (m : Mnemonic) (b : Byte) (h : m.format = .i) :
    (Line.mk m (some b.toNat)).assemble = some (m.command b) := by
  have hw : (Line.mk m (some b.toNat)).wellFormed = true := by simp [Line.wellFormed, h, b.isLt]
  simp [Line.assemble, hw]

theorem nop : Statement .nop := ⟨rfl, rfl⟩
theorem statRd : Statement .statRd := ⟨rfl, rfl⟩
theorem fltRd : Statement .fltRd := ⟨rfl, rfl⟩
theorem crcClr : Statement .crcClr := ⟨rfl, rfl⟩
theorem crcByte (b : Byte) : Statement (.crcByte b) := ⟨wellFormed_all _, assemble_operand .crcByte b rfl⟩
theorem crcRd : Statement .crcRd := ⟨rfl, rfl⟩
theorem blkSet (b : Byte) : Statement (.blkSet b) := ⟨wellFormed_all _, assemble_operand .blkSet b rfl⟩
theorem blkInc : Statement .blkInc := ⟨rfl, rfl⟩
theorem blkRd : Statement .blkRd := ⟨rfl, rfl⟩
theorem payClr : Statement .payClr := ⟨rfl, rfl⟩
theorem payPush (b : Byte) : Statement (.payPush b) := ⟨wellFormed_all _, assemble_operand .payPush b rfl⟩
theorem frmBuild : Statement .frmBuild := ⟨rfl, rfl⟩
theorem frmRd : Statement .frmRd := ⟨rfl, rfl⟩
theorem frmRewind : Statement .frmRewind := ⟨rfl, rfl⟩
theorem frmPeek (b : Byte) : Statement (.frmPeek b) := ⟨wellFormed_all _, assemble_operand .frmPeek b rfl⟩
theorem frmPos : Statement .frmPos := ⟨rfl, rfl⟩

end Sys2Proof.Laws.AsmRoundTrip
end

