-- ==== Sys2Proof/Tests/Slice0.lean ====
section
/-! SUPPORT. The model's own tests, their expected values from 95_test_vectors and the worked examples of the command
rules, and for every statement of Certificates/Slice0/Obligations with hypotheses a state and operands that meet them. -/

namespace Sys2Proof.Tests

open Sys2Proof.Machine

/-! ### States the tests start from -/

/-- The reset state with another engine. -/
def stateOf (e : Engine) : State := { State.reset with engine := e }

/-- One byte 0x41 loaded (95_test_vectors V2.8 step 3). -/
def loaded : Engine := { Engine.reset with pay := [(0, 0x41#8)], fill := 1#8 }

/-- The frame of the chunk 0x41 built (V2.8 step 4), the read pointer at `p`. -/
def builtAt (p : Byte) : Engine := { built loaded [0x41#8] with rdptr := p }

/-- A full chunk: the bytes 0 to 127. -/
def fullChunk : List Byte := (List.range 128).map (BitVec.ofNat 8)

/-- The full chunk loaded. -/
def loadedFull : Engine := { Engine.reset with pay := Memory.ofBytes 0 fullChunk, fill := 128#8 }

/-- Faulted by `FRM.RD` with no frame (43_status R162, example). -/
def faultedState : State := stateOf { Engine.reset with fault := .frameInvalid, fcmd := 0x4100#16 }

/-- The state a step or a command answers, or the reset state where it stops. -/
def nextOf : Host.Outcome State Fault Refusal → State
  | .next t => t
  | .fault _ | .refused _ => State.reset

/-! ### Well-formedness: an ill-formed term for each check -/

theorem test_wf_z_with_operand : (Line.mk .nop (some 0)).wellFormed = false := by decide
theorem test_wf_i_without_operand : (Line.mk .crcByte none).wellFormed = false := by decide
theorem test_wf_i_operand_too_wide : (Line.mk .frmPeek (some 256)).wellFormed = false := by decide
theorem test_wf_i_operand_widest : (Line.mk .frmPeek (some 255)).wellFormed = true := by decide
theorem test_wf_load_empty : pseudoWellFormed (.load []) = false := by decide
theorem test_wf_packet_too_long : pseudoWellFormed (.packet (List.replicate 129 0x00#8)) = false := by
  decide +kernel
theorem test_memory_wf_refuses_unsorted : Memory.wf 128 [(1, 0x00#8), (0, 0x00#8)] = false := by decide
theorem test_memory_wf_refuses_outside : Memory.wf 128 [(128, 0x00#8)] = false := by decide

/-! ### Decoding: every row of 30_encoding R75, its word written out bit by bit -/

theorem test_decode_system :
    decode 0b0000000000000000#16 = .ok .nop ∧ decode 0b0000000100000000#16 = .ok .statRd ∧
    decode 0b0000001000000000#16 = .ok .fltRd := by decide
theorem test_decode_crc :
    decode 0b0001000000000000#16 = .ok .crcClr ∧ decode 0b0001000100110001#16 = .ok (.crcByte 0x31#8) ∧
    decode 0b0001001000000000#16 = .ok .crcRd := by decide
theorem test_decode_blk :
    decode 0b0010000011111110#16 = .ok (.blkSet 0xFE#8) ∧ decode 0b0010000100000000#16 = .ok .blkInc ∧
    decode 0b0010001000000000#16 = .ok .blkRd := by decide
theorem test_decode_pay :
    decode 0b0011000000000000#16 = .ok .payClr ∧ decode 0b0011000101001000#16 = .ok (.payPush 0x48#8) := by decide
theorem test_decode_frm :
    decode 0b0100000000000000#16 = .ok .frmBuild ∧ decode 0b0100000100000000#16 = .ok .frmRd ∧
    decode 0b0100001000000000#16 = .ok .frmRewind ∧ decode 0b0100001110000100#16 = .ok (.frmPeek 132#8) ∧
    decode 0b0100010000000000#16 = .ok .frmPos := by decide
/-- V2.11, illegal words. -/
theorem test_decode_illegal :
    [0x0001#16, 0x00FF#16, 0x0101#16, 0x0300#16, 0x0F00#16, 0x1001#16, 0x1201#16, 0x1300#16, 0x2101#16, 0x2300#16,
      0x3001#16, 0x3200#16, 0x4001#16, 0x4101#16, 0x4201#16, 0x4401#16, 0x4500#16, 0x5000#16, 0x8000#16, 0xFF00#16,
      0xFFFF#16].all (fun w => (decode w).toOption.isNone) = true := by decide
/-- R75 "pairwise disjoint". -/
theorem test_rows_disjoint :
    opcodeTable.Pairwise fun r q => r.pattern &&& (r.mask &&& q.mask) ≠ q.pattern &&& (r.mask &&& q.mask) := by decide
theorem test_decodeTableWord : decodeTableWord 16 0x3141 = some (.payPush 0x41#8) := by decide
/-- R78: `CRC.BYTE 0x31` is 0x1131, `FRM.BUILD` is 0x4000, `FRM.PEEK 132` is 0x4384. -/
theorem test_asm_crcByte :
    (assembleText ['C', 'R', 'C', '.', 'B', 'Y', 'T', 'E', ' ', '0', 'x', '3', '1']).map encode = some 0x1131#16 := by
  decide
theorem test_asm_frmBuild :
    (assembleText ['F', 'R', 'M', '.', 'B', 'U', 'I', 'L', 'D', ' ', ';', ' ', '4']).map encode = some 0x4000#16 := by
  decide
theorem test_asm_frmPeek :
    (assembleText ['F', 'R', 'M', '.', 'P', 'E', 'E', 'K', ' ', '1', '3', '2']).map encode = some 0x4384#16 := by decide
/-- P2's repetition line has no form in R78, and is refused (log 14). -/
theorem test_asm_repetition :
    assembleText ['F', 'R', 'M', '.', 'R', 'D', ' ', ' ', 'x', ' ', '1', '3', '3'] = none := by decide
/-- P6: the 300-byte file is 713 commands. -/
theorem test_session_length :
    (expand .session ++ blockCommands (List.replicate 128 0x00#8) 1 ++ blockCommands (List.replicate 128 0x00#8) 1 ++
      blockCommands (List.replicate 44 0x00#8) 1).length = 713 := by decide +kernel

/-! ### The functions -/

/-- V2.1. -/
theorem test_crcShift :
    [0x0000#16, 0x0001#16, 0x4000#16, 0x7FFF#16, 0x8000#16, 0x8810#16, 0xFFFF#16].map crcShift =
      [0x0000#16, 0x0002#16, 0x8000#16, 0xFFFE#16, 0x1021#16, 0x0001#16, 0xEFDF#16] := by decide
/-- V2.2. -/
theorem test_crcByte :
    crcByte 0x0000#16 0x31#8 = 0x2672#16 ∧ crcByte 0xFFFF#16 0x00#8 = 0xE1F0#16 ∧
    crcByte 0x31C3#16 0x31#8 = 0xC300#16 := by decide
/-- R101 and R102 by hand: 0xF01F goes to 0xE03E xor 0x1021 = 0xF01F at every bit step (log 15). -/
theorem test_crcByte_fixed : crcShift 0xF01F#16 = 0xF01F#16 ∧ crcByte 0xF01F#16 0x00#8 = 0xF01F#16 := by decide
/-- V1.1, the source's check value. -/
theorem test_crc16_check :
    crc16 [0x31#8, 0x32#8, 0x33#8, 0x34#8, 0x35#8, 0x36#8, 0x37#8, 0x38#8, 0x39#8] = 0x31C3#16 := by decide
/-- V2.3, "HELLO" and its pad. -/
theorem test_crc16_padded : crc16 (pad [0x48#8, 0x45#8, 0x4C#8, 0x4C#8, 0x4F#8]) = 0x1E70#16 := by decide +kernel
/-- V2.7, frame(0x05, 41). -/
theorem test_frame :
    (frameOf 0x05#8 [0x41#8]).take 5 = [0x01#8, 0x05#8, 0xFA#8, 0x41#8, 0x1A#8] ∧
    (frameOf 0x05#8 [0x41#8]).drop 131 = [0xF2#8, 0xDD#8] := by decide +kernel

/-! ### One step of each command -/

/-- R160: NOP does nothing, Faulted too. -/
theorem test_nop : nextOf (exec .nop faultedState) = faultedState := by decide
/-- R161: with 5 bytes loaded and FRAME_INVALID raised, 0x8005. -/
theorem test_statRd :
    (nextOf (exec .statRd (stateOf { Engine.reset with fill := 5#8, fault := .frameInvalid }))).resp = some 0x8005#16 := by
  decide
/-- R161: after PAY_OVERFLOW with a valid 128-byte frame, 0x4180. -/
theorem test_statRd_full :
    (nextOf (exec .statRd (stateOf { loadedFull with fvalid := true, fault := .payOverflow }))).resp = some 0x4180#16 := by
  decide +kernel
/-- R162, example. -/
theorem test_fltRd : (nextOf (exec .fltRd faultedState)).resp = some 0x4100#16 := by decide
/-- R105, example; the frame stays valid. -/
theorem test_crcClr :
    (nextOf (exec .crcClr (stateOf { Engine.reset with crc := 0x31C3#16, fvalid := true }))).engine =
      { Engine.reset with crc := 0x0000#16, fvalid := true } := by decide
/-- R106, example: 0x2672 then 0x32 gives 0x20B5. -/
theorem test_crcByte_step :
    (nextOf (exec (.crcByte 0x32#8) (stateOf { Engine.reset with crc := 0x2672#16 }))).engine.crc = 0x20B5#16 := by decide
/-- R107, no byte swap. -/
theorem test_crcRd :
    (nextOf (exec .crcRd (stateOf { Engine.reset with crc := 0x31C3#16 }))).resp = some 0x31C3#16 := by decide
/-- R121, example. -/
theorem test_blkSet :
    (nextOf (exec (.blkSet 0x01#8) (stateOf { Engine.reset with blk := 0x07#8, fvalid := true, rdptr := 133#8 }))).engine =
      { Engine.reset with blk := 0x01#8 } := by decide
/-- R122: 0xFF wraps to 0x00, no fault. -/
theorem test_blkInc_wraps :
    (nextOf (exec .blkInc (stateOf { Engine.reset with blk := 0xFF#8 }))).engine = { Engine.reset with blk := 0x00#8 } := by
  decide
/-- R123: after reset 0x0001. -/
theorem test_blkRd : (nextOf (exec .blkRd State.reset)).resp = some 0x0001#16 := by decide
/-- R133, example. -/
theorem test_payClr :
    (nextOf (exec .payClr (stateOf { loaded with fvalid := true, rdptr := 133#8 }))).engine =
      { loaded with fill := 0#8 } := by decide
/-- R134: the second byte of "HELLO". -/
theorem test_payPush :
    (nextOf (exec (.payPush 0x45#8) (stateOf loaded))).engine =
      { loaded with pay := [(0, 0x41#8), (1, 0x45#8)], fill := 2#8 } := by decide
/-- R134, V2.10: the 129th push faults and changes nothing else. -/
theorem test_payPush_overflow :
    (nextOf (exec (.payPush 0xAA#8) (stateOf { Engine.reset with fill := 128#8, fvalid := true, rdptr := 7#8 }))).engine =
      { Engine.reset with fill := 128#8, fvalid := true, rdptr := 7#8, fault := .payOverflow, fcmd := 0x31AA#16 } := by
  decide
/-- V2.8 step 4. -/
theorem test_frmBuild :
    (nextOf (exec .frmBuild (stateOf loaded))).engine.crc = 0xF2DD#16 ∧
    readFrame (nextOf (exec .frmBuild (stateOf loaded))).engine 131 = .ok 0xF2#8 := by decide +kernel
/-- V2.10: a build of an empty chunk. -/
theorem test_frmBuild_empty :
    nextOf (exec .frmBuild State.reset) =
      stateOf { Engine.reset with fault := .emptyBuild, fcmd := 0x4000#16 } := by decide
/-- R137: the third read of the frame of block 1. -/
theorem test_frmRd :
    (nextOf (exec .frmRd (stateOf (builtAt 2#8)))).resp = some 0x00FE#16 ∧
    (nextOf (exec .frmRd (stateOf (builtAt 2#8)))).engine.rdptr = 3#8 := by decide +kernel
/-- V2.10: the 134th read faults. -/
theorem test_frmRd_underrun :
    (nextOf (exec .frmRd (stateOf { Engine.reset with fvalid := true, rdptr := 133#8 }))).engine =
      { Engine.reset with fvalid := true, rdptr := 133#8, fault := .frameUnderrun, fcmd := 0x4100#16 } := by decide
/-- R138, example. -/
theorem test_frmRewind :
    (nextOf (exec .frmRewind (stateOf { Engine.reset with fvalid := true, rdptr := 133#8 }))).engine =
      { Engine.reset with fvalid := true } := by decide
/-- V2.8 step 12: the last index answers the CRC low byte. -/
theorem test_frmPeek : (nextOf (exec (.frmPeek 132#8) (stateOf (builtAt 5#8)))).resp = some 0x00DD#16 := by
  decide +kernel
/-- V2.10: FRAME_INVALID wins over INDEX_RANGE. -/
theorem test_frmPeek_priority :
    (nextOf (exec (.frmPeek 255#8) State.reset)).engine =
      { Engine.reset with fault := .frameInvalid, fcmd := 0x43FF#16 } := by decide
/-- R140: 133 is 0x0085. -/
theorem test_frmPos :
    (nextOf (exec .frmPos (stateOf { Engine.reset with rdptr := 133#8 }))).resp = some 0x0085#16 := by decide
/-- An illegal word, V2.10. -/
theorem test_illegal_word :
    nextOf (step { State.reset with inbox := [.cmd 0x4500#16] }) =
      stateOf { Engine.reset with fault := .illegalCmd, fcmd := 0x4500#16 } := by decide
/-- R230: reset leaves the Faulted condition. -/
theorem test_reset_event : nextOf (step { faultedState with inbox := [.rst] }) = State.reset := by decide
/-- The first step after reset runs the placed word (log 4). -/
theorem test_withFetchWord :
    nextOf (step (State.reset.withFetchWord 16 0x20FE)) = stateOf { Engine.reset with blk := 0xFE#8 } := by decide

/-! ### Witnesses: states that meet the hypotheses of the statements -/

/-- A frame just built meets the invariant. -/
theorem builtAt_inv {p : Byte} (hp : p.toNat ≤ 133) : (builtAt p).Inv where
  fill_le := (by decide : (1#8 : Byte).toNat ≤ 128)
  rdptr_le := hp
  rdptr_zero := fun h => by cases h
  chunk_written := ⟨[0x41#8], rfl⟩
  frame_current := fun _ => ⟨(by decide : 1 ≤ (1#8 : Byte).toNat), [0x41#8], rfl, fun i hi =>
    (readFrame_ofBytes (e := builtAt p) (l := frameOf 0x01#8 [0x41#8]) (by decide +kernel) rfl i).trans (if_pos hi)⟩
  fcmd_zero := fun _ => rfl
  pay_wf := rfl
  frame_wf := memory_wf_ofBytes (frameOf 0x01#8 [0x41#8]) (by decide +kernel)

theorem reset_inv : State.reset.Inv where
  fill_le := by decide
  rdptr_le := by decide
  rdptr_zero := fun _ => rfl
  chunk_written := ⟨[], rfl⟩
  frame_current := fun h => by cases h
  fcmd_zero := fun _ => rfl
  pay_wf := rfl
  frame_wf := rfl

/-- DecodeOfEncode. -/
theorem witness_wellFormed : (Instr.frmPeek 255#8).wellFormed = true ∧ Instr.nop.wellFormed = true := by decide
/-- IllegalWordRaisesFault: an unlisted opcode, and a format Z opcode with an operand. -/
theorem witness_illegal :
    ∃ s t : State, s.inbox = [.cmd 0x4500#16] ∧ decode 0x4500#16 = .error (.unknownOpcode 0x45#8) ∧
      s.engine.fault = .none ∧ t.inbox = [.cmd 0x1001#16] ∧
      decode 0x1001#16 = .error (.nonzeroOperand .crcClr 0x01#8) ∧ t.engine.fault = .none :=
  ⟨{ State.reset with inbox := [.cmd 0x4500#16] }, { State.reset with inbox := [.cmd 0x1001#16] }, by decide⟩
/-- StepRunsDecodedCommand. -/
theorem witness_decoded :
    ∃ s : State, s.inbox = [.cmd 0x43FF#16, .rst] ∧ decode 0x43FF#16 = .ok (.frmPeek 0xFF#8) ∧
      (Instr.frmPeek 0xFF#8).wellFormed = true := ⟨{ State.reset with inbox := [.cmd 0x43FF#16, .rst] }, by decide⟩
/-- ResetLeavesResetValues, and the second part of OnlyResetClearsFault: a reset given to a Faulted engine. -/
theorem witness_reset : ∃ s : State, s.engine.fault ≠ .none ∧ s.inbox = [.rst, .cmd 0x0000#16] :=
  ⟨{ faultedState with inbox := [.rst, .cmd 0x0000#16] }, by decide⟩
/-- IdleKeepsState. -/
theorem witness_idle : State.reset.inbox = [] := rfl
/-- FaultedEngineIsFrozen and OnlyResetClearsFault: the two words that respond, a legal and an illegal other word. -/
theorem witness_faulted :
    ∀ w ∈ [0x0100#16, 0x0200#16, 0x2200#16, 0xFFFF#16], ∃ s : State, s.inbox = [.cmd w] ∧ s.engine.fault ≠ .none ∧
      (∀ rest, s.inbox ≠ .rst :: rest) ∧ ∃ t, step s = .next t := by
  intro w hw
  refine ⟨{ faultedState with inbox := [.cmd w] }, rfl, (by decide : FaultCode.frameInvalid ≠ .none), by simp, ?_⟩
  simp only [List.mem_cons, List.not_mem_nil, or_false] at hw
  rcases hw with rfl | rfl | rfl | rfl <;> exact ⟨_, rfl⟩
/-- InertWhileFaulted, in every statement that uses it. -/
theorem witness_inert : faultedState.engine.fault ≠ .none := by decide
/-- OperandIsIllegal, at the least and the largest operand. -/
theorem witness_operand :
    ∃ s t : State, (1#8) ≠ 0#8 ∧ s.engine.fault = .none ∧ s.inbox = [.cmd (0x1000#16 + (1#8).setWidth 16)] ∧
      (255#8) ≠ 0#8 ∧ t.engine.fault = .none ∧ t.inbox = [.cmd (0x4400#16 + (255#8).setWidth 16)] :=
  ⟨{ State.reset with inbox := [.cmd 0x1001#16] }, { State.reset with inbox := [.cmd 0x44FF#16] }, by decide⟩
/-- FaultEntryIsPrecise, StepKeepsTheInvariant, FaultRecordAgrees: a step of each of its three kinds. -/
theorem witness_step_kinds :
    (∃ t, step { State.reset with inbox := [.cmd 0x1131#16] } = .next t ∧ t.engine.fault = .none) ∧
    (∃ t, step { State.reset with inbox := [.rst] } = .next t ∧ t.engine = Engine.reset) ∧
    ∃ t, step { State.reset with inbox := [.cmd 0x4000#16] } = .next t ∧ t.engine.fault = .emptyBuild :=
  ⟨⟨_, rfl, rfl⟩, ⟨_, rfl, rfl⟩, ⟨_, rfl, rfl⟩⟩
/-- ResponsesComeFromRespondingCommands: a response and none. -/
theorem witness_responses :
    (∃ t, exec .blkRd State.reset = .next t ∧ t.resp ≠ none) ∧ (∃ t, exec .blkInc State.reset = .next t ∧ t.resp = none) ∧
    ∃ t, exec .blkRd faultedState = .next t ∧ t.resp = none :=
  ⟨⟨_, rfl, by decide⟩, ⟨_, rfl, rfl⟩, ⟨_, rfl, rfl⟩⟩
/-- TwelveCommandsNeverFault, at the first and the last of the list. -/
theorem witness_twelve :
    Instr.nop.line.mnemonic ∈ [Mnemonic.nop, .statRd, .fltRd, .crcClr, .crcByte, .crcRd, .blkSet, .blkInc,
      .blkRd, .payClr, .frmRewind, .frmPos] ∧
    Instr.frmPos.line.mnemonic ∈ [Mnemonic.nop, .statRd, .fltRd, .crcClr, .crcByte, .crcRd, .blkSet, .blkInc,
      .blkRd, .payClr, .frmRewind, .frmPos] := by decide
/-- FaultsExactlyUnderTheirConditions: each cause is raised somewhere, at the boundary of its condition. -/
theorem witness_causes :
    (∃ t, exec (.payPush 0xAA#8) (stateOf loadedFull) = .next t ∧ t.engine.fault = .payOverflow) ∧
    (∃ t, exec .frmBuild State.reset = .next t ∧ t.engine.fault = .emptyBuild) ∧
    (∃ t, exec (.frmPeek 133#8) State.reset = .next t ∧ t.engine.fault = .frameInvalid) ∧
    (∃ t, exec .frmRd (stateOf (builtAt 133#8)) = .next t ∧ t.engine.fault = .frameUnderrun) ∧
    ∃ t, exec (.frmPeek 133#8) (stateOf (builtAt 0#8)) = .next t ∧ t.engine.fault = .indexRange :=
  ⟨⟨_, rfl, rfl⟩, ⟨_, rfl, rfl⟩, ⟨_, rfl, rfl⟩, ⟨_, rfl, rfl⟩, ⟨_, rfl, rfl⟩⟩
/-- The statements of one command's result in a state with `FAULT = 0`. -/
theorem witness_running : State.reset.engine.fault = .none ∧ (stateOf (builtAt 133#8)).engine.fault = .none := by decide
/-- PayPushAppendsByte: the first byte, the 128th, and the 129th. -/
theorem witness_payPush :
    State.reset.engine.fill.toNat < 128 ∧ (stateOf { loadedFull with fill := 127#8 }).engine.fill.toNat < 128 ∧
    (stateOf { loadedFull with fill := 127#8 }).engine.fault = .none ∧ (stateOf loadedFull).engine.fill = 128#8 ∧
    (stateOf loadedFull).engine.fault = .none := by decide +kernel
/-- FrmBuildAssemblesFrame: a chunk of 1 byte and one of 128 bytes. -/
theorem witness_frmBuild :
    (loaded.fault = .none ∧ loaded.fill ≠ 0#8 ∧ readChunk loaded = .ok [0x41#8]) ∧
    loadedFull.fault = .none ∧ loadedFull.fill ≠ 0#8 ∧ readChunk loadedFull = .ok fullChunk := by decide +kernel
/-- FrmRdReadsNextByte and FrmPeekReadsIndexedByte: the first and the last byte, the end, the first index outside. -/
theorem witness_frame_reads :
    (∃ b, (builtAt 0#8).fault = .none ∧ (builtAt 0#8).fvalid = true ∧
      readFrame (builtAt 0#8) (builtAt 0#8).rdptr.toNat = .ok b) ∧
    (∃ b, (builtAt 132#8).fault = .none ∧ (builtAt 132#8).fvalid = true ∧
      readFrame (builtAt 132#8) (builtAt 132#8).rdptr.toNat = .ok b) ∧
    (∃ b, (builtAt 0#8).fault = .none ∧ (builtAt 0#8).fvalid = true ∧
      readFrame (builtAt 0#8) (132#8 : Byte).toNat = .ok b) ∧
    ((builtAt 133#8).fault = .none ∧ (builtAt 133#8).fvalid = true ∧ (builtAt 133#8).rdptr = 133#8) ∧
    ((builtAt 0#8).fault = .none ∧ (builtAt 0#8).fvalid = true ∧ 133 ≤ (133#8 : Byte).toNat) ∧
    (State.reset.engine.fault = .none ∧ State.reset.engine.fvalid = false) := by
  obtain ⟨_, l, _, h⟩ := (builtAt_inv (p := 0#8) (by decide)).frame_current rfl
  obtain ⟨_, k, _, g⟩ := (builtAt_inv (p := 132#8) (by decide)).frame_current rfl
  exact ⟨⟨_, rfl, rfl, h 0 (by decide)⟩, ⟨_, rfl, rfl, g 132 (by decide)⟩, ⟨_, rfl, rfl, h 132 (by decide)⟩,
    ⟨rfl, rfl, rfl⟩, ⟨rfl, rfl, by decide⟩, rfl, rfl⟩
/-- CrcIsLinear, third part. -/
theorem witness_same_length : [0x01#8, 0x02#8].length = [0xFF#8, 0x00#8].length := rfl
/-- CrcCommandsComputeCrc16, of an empty and of a longer list. -/
theorem witness_crc16_commands :
    ∃ s t : State, s.engine.fault = .none ∧ s.inbox = given (crc16Commands []) ++ [.rst] ∧ t.engine.fault = .none ∧
      t.inbox = given (crc16Commands [0x31#8, 0x32#8]) ++ [] :=
  ⟨{ State.reset with inbox := given (crc16Commands []) ++ [.rst] },
    { State.reset with inbox := given (crc16Commands [0x31#8, 0x32#8]) ++ [] }, rfl, rfl, rfl, rfl⟩
/-- NthBlockCarriesNModulo256, at the wrap. -/
theorem witness_block_numbers :
    ∃ s : State, s.engine.fault = .none ∧ s.engine.blk = 0x01#8 ∧ s.inbox = given (List.replicate 255 .blkInc) ++ [] :=
  ⟨{ State.reset with inbox := given (List.replicate 255 .blkInc) ++ [] }, rfl, rfl, rfl⟩
/-- BlockNumberIsKept: a step of each kind that writes `BLK`. -/
theorem witness_block_changes :
    (∃ t, step { stateOf { Engine.reset with blk := 0x07#8 } with inbox := [.rst] } = .next t ∧ t.engine.blk ≠ 0x07#8) ∧
    (∃ t, step { State.reset with inbox := [.cmd 0x2100#16] } = .next t ∧ t.engine.blk ≠ 0x01#8) ∧
    ∃ t, step { State.reset with inbox := [.cmd 0x2000#16] } = .next t ∧ t.engine.blk ≠ 0x01#8 :=
  ⟨⟨_, rfl, by decide⟩, ⟨_, rfl, by decide⟩, ⟨_, rfl, by decide⟩⟩
/-- FrameLayout and FrameProperties, at both ends of the chunk length; `k` at its bound. -/
theorem witness_chunk_lengths :
    1 ≤ [0x41#8].length ∧ [0x41#8].length ≤ 128 ∧ [0x41#8].length + 127 ≤ 128 ∧ 1 ≤ fullChunk.length ∧
    fullChunk.length ≤ 128 ∧ fullChunk.length + 0 ≤ 128 := by decide +kernel
/-- RebuildGivesSameFrame and ValidFrameIsSelfConsistent. -/
theorem witness_valid_frame :
    (stateOf (builtAt 133#8)).Inv ∧ (builtAt 133#8).fault = .none ∧ (builtAt 133#8).fvalid = true :=
  ⟨builtAt_inv (by decide), rfl, rfl⟩
/-- LoadAndBuildComputeFrame, at both ends of the chunk length. -/
theorem witness_load :
    (∃ s : State, s.engine.fault = .none ∧ s.inbox = given (loadCommands [0x41#8] ++ [.frmBuild]) ++ []) ∧
    ∃ s : State, s.engine.fault = .none ∧ s.inbox = given (loadCommands fullChunk ++ [.frmBuild]) ++ [.rst] :=
  ⟨⟨{ State.reset with inbox := given (loadCommands [0x41#8] ++ [.frmBuild]) ++ [] }, rfl, rfl⟩,
    ⟨{ State.reset with inbox := given (loadCommands fullChunk ++ [.frmBuild]) ++ [.rst] }, rfl, rfl⟩⟩
/-- FrameIsReadInOrder, for one read and for all 133. -/
theorem witness_read_in_order :
    ∀ n ∈ [0, 132], ∃ s : State, s.engine.fault = .none ∧ s.engine.fvalid = true ∧ s.engine.rdptr = 0#8 ∧
      (∃ f : List Byte, ∀ i, i < 133 → readFrame s.engine i = .ok (f.getD i 0#8)) ∧ n < 133 ∧
      s.inbox = given (List.replicate (n + 1) .frmRd) ++ [] := by
  intro n hn
  obtain ⟨_, l, _, h⟩ := (builtAt_inv (p := 0#8) (by decide)).frame_current rfl
  refine ⟨{ stateOf (builtAt 0#8) with inbox := given (List.replicate (n + 1) .frmRd) ++ [] }, rfl, rfl, rfl, ⟨_, h⟩, ?_, rfl⟩
  simp only [List.mem_cons, List.not_mem_nil, or_false] at hn
  omega
/-- The frame statements and EachItemHasItsWriters: every command answers a next state from the reset state. -/
theorem witness_exec :
    ∀ i ∈ [Instr.nop, .statRd, .fltRd, .crcClr, .crcByte 0x31#8, .crcRd, .blkSet 0xFE#8, .blkInc, .blkRd, .payClr,
      .payPush 0x41#8, .frmBuild, .frmRd, .frmRewind, .frmPeek 0#8, .frmPos], ∃ t, exec i State.reset = .next t := by
  intro i hi
  simp only [List.mem_cons, List.not_mem_nil, or_false] at hi
  rcases hi with rfl | rfl | rfl | rfl | rfl | rfl | rfl | rfl | rfl | rfl | rfl | rfl | rfl | rfl | rfl | rfl <;>
    exact ⟨_, rfl⟩
/-- PayCommandsFrame and FrmCommandsFrame: each fault side is met from a state with `FAULT = 0`, and each other side. -/
theorem witness_frame_sides :
    (∃ t, exec (.payPush 0x00#8) (stateOf loadedFull) = .next t ∧ t.engine.fault ≠ loadedFull.fault) ∧
    (∃ t, exec (.payPush 0x00#8) (stateOf loaded) = .next t ∧ t.engine.fault = loaded.fault) ∧
    (∃ t, exec .frmBuild State.reset = .next t ∧ t.engine.fault ≠ Engine.reset.fault) ∧
    ∃ t, exec .frmBuild (stateOf loaded) = .next t ∧ t.engine.fault = loaded.fault :=
  ⟨⟨_, rfl, by decide⟩, ⟨_, rfl, rfl⟩, ⟨_, rfl, by decide⟩, ⟨_, rfl, rfl⟩⟩
/-- EachItemHasItsWriters: each item is changed by some command. -/
theorem witness_writers :
    (nextOf (exec (.crcByte 0x31#8) State.reset)).engine.crc ≠ State.reset.engine.crc ∧
    (nextOf (exec (.payPush 0x41#8) State.reset)).engine.pay ≠ State.reset.engine.pay ∧
    (nextOf (exec (.payPush 0x41#8) State.reset)).engine.fill ≠ State.reset.engine.fill ∧
    (nextOf (exec .frmBuild (stateOf loaded))).engine.frame ≠ loaded.frame ∧
    ((nextOf (exec .frmBuild (stateOf loaded))).engine.fvalid = true ∧ loaded.fvalid = false) ∧
    ((nextOf (exec .blkInc (stateOf (builtAt 5#8)))).engine.fvalid = false ∧ (builtAt 5#8).fvalid = true) ∧
    (nextOf (exec .frmRewind (stateOf (builtAt 5#8)))).engine.rdptr ≠ (builtAt 5#8).rdptr := by
  refine ⟨by decide, by decide, by decide, fun h => ?_, ⟨rfl, rfl⟩, ⟨rfl, rfl⟩, by decide⟩
  exact absurd (congrArg List.length h) (by decide +kernel)
/-- StepKeepsTheInvariant and StepNeverStops: the reset state, and a state with a valid frame and a read pending. -/
theorem witness_inv :
    State.reset.Inv ∧ ({ stateOf (builtAt 132#8) with inbox := [.cmd 0x4100#16] } : State).Inv :=
  ⟨reset_inv, builtAt_inv (p := 132#8) (by decide)⟩
/-- FaultRecordAgrees: a state with no fault and a Faulted one. -/
theorem witness_fault_record : FaultRecorded Engine.reset ∧ FaultRecorded faultedState.engine := ⟨rfl, .inl rfl⟩
/-- UnwrittenBytesNeverShow: two different states that differ only in bytes no rule reads. -/
theorem witness_indistinct :
    Indistinct State.reset (stateOf { Engine.reset with pay := [(5, 0x07#8)], frame := [(0, 0x99#8)] }) ∧
    State.reset ≠ stateOf { Engine.reset with pay := [(5, 0x07#8)], frame := [(0, 0x99#8)] } :=
  ⟨⟨rfl, rfl, rfl, rfl, rfl, rfl, rfl, rfl, rfl, fun i hi => absurd hi (Nat.not_lt_zero i), fun h => by cases h⟩, by decide⟩

end Sys2Proof.Tests
end

section
/-! The outputs of the engine (10_state R36). -/

namespace Sys2Proof.Machine

/-- R36: the output `fault_o` is the Faulted condition. -/
theorem faultOut_eq_true (e : Engine) : faultOut e = true ↔ e.fault ≠ .none := faulted_eq_true e

/-- R36: the output `fvalid_o` is the flag `FVALID`. -/
theorem fvalidOut_eq (e : Engine) : fvalidOut e = e.fvalid := rfl

/-- Settles O13: each output is a view of one register, in every state of the engine. -/
theorem outputsMirrorState : Obligations.OutputsMirrorState :=
  fun e => ⟨faultOut_eq_true e, fvalidOut_eq e⟩

end Sys2Proof.Machine
end

section
/-! A word with the opcode of a format Z command and a low byte that is not 0 is illegal (30_encoding R70, R77 (b)). -/

namespace Sys2Proof

/-- R56: the opcode of a word put together from an opcode and an operand. -/
@[simp] theorem cmdOpcode_shift_add (p x : Byte) : cmdOpcode (p.setWidth 16 <<< 8 + x.setWidth 16) = p := by
  apply BitVec.eq_of_toNat_eq
  simp [cmdOpcode, Nat.shiftRight_eq_div_pow, Nat.shiftLeft_eq]
  omega

/-- R56: the operand of a word put together from an opcode and an operand. -/
@[simp] theorem cmdOperand_shift_add (p x : Byte) : cmdOperand (p.setWidth 16 <<< 8 + x.setWidth 16) = x := by
  apply BitVec.eq_of_toNat_eq
  simp [cmdOperand, Nat.shiftLeft_eq]
  omega

/-- R75: the mask of every row tests the whole opcode. -/
theorem opcodeTable_mask_opcode : ∀ r ∈ opcodeTable, cmdOpcode r.mask = 0xFF#8 := by decide

/-- R75: a row that matches a word has the word's opcode. -/
theorem rowMatches_opcode {w : Word} {r : OpcodeRow} (hr : r ∈ opcodeTable) (h : rowMatches w r = true) :
    cmdOpcode w = cmdOpcode r.pattern := by
  have hmask : w &&& r.mask = r.pattern := of_decide_eq_true h
  calc cmdOpcode w = cmdOpcode w &&& cmdOpcode r.mask := by
        rw [opcodeTable_mask_opcode r hr]
        exact (BitVec.and_allOnes (x := cmdOpcode w)).symm
    _ = cmdOpcode (w &&& r.mask) := BitVec.extractLsb'_and.symm
    _ = cmdOpcode r.pattern := by rw [hmask]

/-- R70, R75: the row of a format Z opcode tests the whole word, and its low byte is 0. -/
theorem opcodeTable_formatZ {m : Mnemonic} (hz : m.format = .z) :
    ∀ r ∈ opcodeTable, m.opcode = cmdOpcode r.pattern → r.mask = 0xFFFF#16 ∧ cmdOperand r.pattern = 0#8 := by
  cases m <;> revert hz <;> decide

/-- R77 (b): a word with a format Z opcode and a low byte other than 0 is rejected. -/
theorem decode_error_of_formatZ {m : Mnemonic} {w : Word} (hz : m.format = .z) (hop : cmdOpcode w = m.opcode)
    (hne : cmdOperand w ≠ 0#8) : ∃ r, decode w = .error r := by
  rw [decode_error_iff]
  intro r hr
  by_contra hmatch
  have hm : rowMatches w r = true := by simpa using hmatch
  obtain ⟨hmask, hzero⟩ := opcodeTable_formatZ hz r hr (hop.symm.trans (rowMatches_opcode hr hm))
  have hw : w = r.pattern := by
    rw [← and_mask_z w, ← hmask]
    exact of_decide_eq_true hm
  exact hne (hw ▸ hzero)

end Sys2Proof

namespace Sys2Proof.Machine

/-- R202: a step on an illegal word, while not Faulted, raises `ILLEGAL_CMD` and records the word. -/
theorem step_of_illegal {s : State} {w : Word} {rest : List PortEvent} (hin : s.inbox = .cmd w :: rest)
    (hdec : ∃ r, decode w = .error r) (hf : s.engine.fault = .none) :
    step s = .next (raised { s with inbox := rest } .illegalCmd w) := by
  obtain ⟨r, hr⟩ := hdec
  have hstep : step s = takeIllegal w (withInbox s rest) := by simp [step, fetch, hin, hr]
  rw [hstep, takeIllegal, unlessFaulted_of_running (by simpa using hf), raiseFault_eq]
  rfl

/-- R77 (b), R202: with any low byte but 0, the word of a format Z command raises `ILLEGAL_CMD`. -/
theorem operandIsIllegal_of_formatZ {m : Mnemonic} (hz : m.format = .z) :
    OperandIsIllegal (m.opcode.setWidth 16 <<< 8) :=
  fun _ _ _ hx hf hin => step_of_illegal hin (decode_error_of_formatZ hz (by simp) (by simpa using hx)) hf

end Sys2Proof.Machine
end

section
/-! The CRC unit's format Z commands (40_crc R105, R107). -/

namespace Sys2Proof.Machine

/-- R105: what `CRC.CLR` does when it is not Faulted. -/
theorem exec_crcClr_of_running {s : State} (hf : s.engine.fault = .none) :
    exec .crcClr s = .next (after s { s.engine with crc := 0x0000#16 } none) :=
  unlessFaulted_of_running hf _

/-- R107: what `CRC.RD` does when it is not Faulted. -/
theorem exec_crcRd_of_running {s : State} (hf : s.engine.fault = .none) :
    exec .crcRd s = .next (answering s s.engine.crc) :=
  unlessFaulted_of_running hf _

/-- Settles O20: the encoding by its row, the illegal words by the format, the effect by the Faulted test. -/
theorem crcClrClearsRegister : Obligations.CrcClrClearsRegister :=
  ⟨rfl, operandIsIllegal_of_formatZ (m := .crcClr) rfl, fun _ hf => unlessFaulted_of_faulted hf _,
    fun _ hf => exec_crcClr_of_running hf⟩

/-- Settles O22: the encoding by its row, the illegal words by the format, the response by the Faulted test. -/
theorem crcRdRespondsRegister : Obligations.CrcRdRespondsRegister :=
  ⟨rfl, operandIsIllegal_of_formatZ (m := .crcRd) rfl, fun _ hf => unlessFaulted_of_faulted hf _,
    fun _ hf => exec_crcRd_of_running hf⟩

end Sys2Proof.Machine
end

section
/-! The commands of the block sequence number (41_blocknum R121 to R123). -/

namespace Sys2Proof.Machine

/-- R75, R121: the word of `BLK.SET` is its opcode with the operand in the low byte. -/
theorem encode_blkSet (b : Byte) : encode (.blkSet b) = 0x2000#16 + b.setWidth 16 :=
  congrArg (0x2000#16 + ·) (BitVec.ofNat_toNat 16 b)

/-- R121: what `BLK.SET` does when it is not Faulted. -/
theorem exec_blkSet_of_running {s : State} (hf : s.engine.fault = .none) (b : Byte) :
    exec (.blkSet b) s = .next (after s { s.engine with blk := b, fvalid := false, rdptr := 0#8 } none) :=
  unlessFaulted_of_running hf _

/-- R122: what `BLK.INC` does when it is not Faulted. -/
theorem exec_blkInc_of_running {s : State} (hf : s.engine.fault = .none) :
    exec .blkInc s =
      .next (after s { s.engine with blk := s.engine.blk + 1#8, fvalid := false, rdptr := 0#8 } none) :=
  unlessFaulted_of_running hf _

/-- R123: what `BLK.RD` does when it is not Faulted. -/
theorem exec_blkRd_of_running {s : State} (hf : s.engine.fault = .none) :
    exec .blkRd s = .next (answering s (s.engine.blk.setWidth 16)) :=
  unlessFaulted_of_running hf _

/-- Settles O31: the word by its opcode and operand, the effect by the Faulted test. -/
theorem blkSetLoadsNumber : Obligations.BlkSetLoadsNumber :=
  fun b => ⟨encode_blkSet b, fun _ hf => unlessFaulted_of_faulted hf _, fun _ hf => exec_blkSet_of_running hf b⟩

/-- Settles O32: the illegal words by the format, the effect by the Faulted test, the number by byte addition. -/
theorem blkIncAdvancesNumber : Obligations.BlkIncAdvancesNumber :=
  ⟨rfl, operandIsIllegal_of_formatZ (m := .blkInc) rfl, fun _ hf => unlessFaulted_of_faulted hf _,
    fun s hf => ⟨s.engine.blk + 1#8, BitVec.toNat_add s.engine.blk 1#8, exec_blkInc_of_running hf⟩⟩

/-- Settles O33: the illegal words by the format, the response by the Faulted test. -/
theorem blkRdRespondsNumber : Obligations.BlkRdRespondsNumber :=
  ⟨rfl, operandIsIllegal_of_formatZ (m := .blkRd) rfl, fun _ hf => unlessFaulted_of_faulted hf _,
    fun _ hf => exec_blkRd_of_running hf⟩

end Sys2Proof.Machine
end

section
/-! The framer's functions, index by index (42_framer R130, R131; 30_encoding R86). -/

namespace Sys2Proof.Machine

/-- R130: byte `i` of the padded payload is the chunk's byte, or the pad byte past the chunk's end. -/
theorem pad_getElem? (l : List Byte) {i : Nat} (hi : i < 128) :
    (pad l)[i]? = some (l.getD i 0x1A#8) := by
  unfold pad
  by_cases h : i < l.length
  · rw [List.getElem?_append_left h, List.getElem?_eq_getElem h, List.getD_eq_getElem l _ h]
  · have hpad : i - l.length < Config.payloadLen - l.length := Nat.sub_lt_sub_right (Nat.le_of_not_lt h) hi
    rw [List.getElem?_append_right (Nat.le_of_not_lt h), List.getElem?_replicate_of_lt hpad,
      List.getD_eq_default l _ (Nat.le_of_not_lt h)]
    rfl

/-- R131: a frame has 3 header bytes, 128 payload bytes and 2 CRC bytes. -/
theorem frameOf_length (b : Byte) {l : List Byte} (hl : l.length ≤ 128) : (frameOf b l).length = 133 := by
  simp [frameOf_eq, pad_length l hl]

/-- R131: the payload stands behind the 3 header bytes. -/
theorem frameOf_getElem?_payload (b : Byte) {l : List Byte} {i : Nat} (hl : l.length ≤ 128) (hi : i < 128) :
    (frameOf b l)[3 + i]? = (pad l)[i]? := by
  have hlt : i < (pad l).length := by rwa [pad_length l hl]
  rw [frameOf_eq, List.append_assoc, List.getElem?_append_right (Nat.le_add_right 3 i), Nat.add_comm 3 i,
    List.length_cons]
  exact List.getElem?_append_left hlt

/-- R131: the CRC bytes stand behind the header and the payload. -/
theorem frameOf_getElem?_crc (b : Byte) {l : List Byte} (hl : l.length ≤ 128) (i : Nat) :
    (frameOf b l)[131 + i]? = [highByte (crc16 (pad l)), lowByte (crc16 (pad l))][i]? := by
  have hlen : ([0x01#8, b, 0xFF#8 - b] ++ pad l).length = 131 := by simp [pad_length l hl]
  rw [frameOf_eq, List.getElem?_append_right (by omega), hlen, Nat.add_sub_cancel_left]

/-- R53, R131: the last two bytes of a frame are the CRC of its payload, high byte first. -/
theorem concatBytes_frameOf_crc (b : Byte) {l : List Byte} (hl : l.length ≤ 128) :
    concatBytes ((frameOf b l).getD 131 0#8) ((frameOf b l).getD 132 0#8) = crc16 (pad l) := by
  rw [List.getD_eq_getElem?_getD, List.getD_eq_getElem?_getD, frameOf_getElem?_crc b hl 0,
    frameOf_getElem?_crc b hl 1]
  exact concatBytes_high_low _

/-- Settles O43: each part of the frame at its place, the payload by the pad. -/
theorem frameLayout : Obligations.FrameLayout := fun b l _ hl =>
  ⟨frameOf_length b hl, rfl, rfl, rfl,
    fun _ hi => (frameOf_getElem?_payload b hl hi).trans (pad_getElem? l hi),
    frameOf_getElem?_crc b hl 0, frameOf_getElem?_crc b hl 1⟩

end Sys2Proof.Machine
end

section
/-! The commands that load a chunk (42_framer R133, R134). -/

namespace Sys2Proof.Machine

/-- R133: what `PAY.CLR` does when it is not Faulted. -/
theorem exec_payClr_of_running {s : State} (hf : s.engine.fault = .none) :
    exec .payClr s = .next (after s { s.engine with fill := 0#8, fvalid := false, rdptr := 0#8 } none) :=
  unlessFaulted_of_running hf _

/-- R75, R134: the word of `PAY.PUSH` is its opcode with the operand in the low byte. -/
theorem encode_payPush (b : Byte) : encode (.payPush b) = 0x3100#16 + b.setWidth 16 :=
  congrArg (0x3100#16 + ·) (BitVec.ofNat_toNat 16 b)

/-- R134: `PAY.PUSH` below 128 bytes, when it is not Faulted. -/
theorem exec_payPush_of_lt {s : State} (hf : s.engine.fault = .none) (hlt : s.engine.fill.toNat < 128) (b : Byte) :
    exec (.payPush b) s = .next (after s (pushed s.engine b) none) := by
  have hne : s.engine.fill ≠ 128#8 := fun h => by simp [h] at hlt
  refine (unlessFaulted_of_running hf _).trans ((if_neg hne).trans ?_)
  rw [bufferIndex, writePay_of_lt hlt]
  rfl

/-- R134, R203: `PAY.PUSH` on a full chunk, when it is not Faulted. -/
theorem exec_payPush_of_full {s : State} (hf : s.engine.fault = .none) (hfull : s.engine.fill = 128#8) (b : Byte) :
    exec (.payPush b) s = .next (raised s .payOverflow (encode (.payPush b))) :=
  (unlessFaulted_of_running hf _).trans (if_pos hfull)

/-- R134: `PAY[FILL]` reads as the byte pushed, every other byte of `PAY` as before. -/
theorem readPay_pushed {e : Engine} (hlt : e.fill.toNat < 128) (b : Byte) (a : Nat) :
    readPay (pushed e b) a = if a = e.fill.toNat then .ok b else readPay e a :=
  readPay_write hlt rfl a

/-- R134: a push counts its byte. -/
theorem pushed_fill_toNat {e : Engine} (hlt : e.fill.toNat < 128) (b : Byte) :
    (pushed e b).fill.toNat = e.fill.toNat + 1 :=
  BitVec.toNat_add_of_lt (show e.fill.toNat + 1 < 2 ^ 8 by omega)

/-- Settles O36: the word by its row, the illegal words by the format, the effect by the Faulted test. -/
theorem payClrEmptiesChunk : Obligations.PayClrEmptiesChunk :=
  ⟨rfl, operandIsIllegal_of_formatZ (m := .payClr) rfl, fun _ hf => unlessFaulted_of_faulted hf _,
    fun _ hf => exec_payClr_of_running hf⟩

/-- Settles O37: the Faulted test, then `FILL = 128` or below; the buffer by the law of a read after a write. -/
theorem payPushAppendsByte : Obligations.PayPushAppendsByte := by
  intro b
  refine ⟨encode_payPush b, fun _ hf => unlessFaulted_of_faulted hf _, fun s hf hlt => ?_, fun s hf hfull => ?_⟩
  · exact ⟨_, exec_payPush_of_lt hf hlt b, (readPay_pushed hlt b _).trans (if_pos rfl),
      fun a ha => (readPay_pushed hlt b a).trans (if_neg ha), pushed_fill_toNat hlt b, rfl, rfl,
      readFrame_congr rfl, rfl, rfl, hf, rfl, rfl, rfl⟩
  · rw [exec_payPush_of_full hf hfull, encode_payPush]

end Sys2Proof.Machine
end

section
/-! `FRM.BUILD` (42_framer R135). -/

namespace Sys2Proof.Machine

/-- R135: `FRM.BUILD` of the chunk `l`, when it is not Faulted. -/
theorem exec_frmBuild_of_chunk {s : State} {l : List Byte} (hf : s.engine.fault = .none)
    (hfill : s.engine.fill ≠ 0#8) (hl : readChunk s.engine = .ok l) :
    exec .frmBuild s = .next (after s (built s.engine l) none) := by
  refine (unlessFaulted_of_running hf _).trans ((if_neg hfill).trans ?_)
  rw [hl]
  rfl

/-- R135, R204: `FRM.BUILD` of an empty chunk, when it is not Faulted. -/
theorem exec_frmBuild_of_empty {s : State} (hf : s.engine.fault = .none) (hfill : s.engine.fill = 0#8) :
    exec .frmBuild s = .next (raised s .emptyBuild 0x4000#16) :=
  (unlessFaulted_of_running hf _).trans (if_pos hfill)

/-- R135: after a build `FRAME` reads as `frame(BLK, L)`, byte by byte. -/
theorem readFrame_built (e : Engine) {l : List Byte} (hl : l.length ≤ 128) {i : Nat} (hi : i < 133) :
    readFrame (built e l) i = .ok ((frameOf e.blk l).getD i 0#8) :=
  (readFrame_ofBytes (frameOf_length e.blk hl) rfl i).trans (if_pos hi)

/-- Settles O38: the Faulted test, then `FILL = 0` or not; the frame's bytes and its CRC by the layout of a frame. -/
theorem frmBuildAssemblesFrame : Obligations.FrmBuildAssemblesFrame := by
  refine ⟨rfl, operandIsIllegal_of_formatZ (m := .frmBuild) rfl, fun _ hf => unlessFaulted_of_faulted hf _,
    fun s l hf hfill hl => ?_, fun s hf hfill => exec_frmBuild_of_empty hf hfill⟩
  have hlen : l.length ≤ 128 := readChunk_length hl
  exact ⟨_, exec_frmBuild_of_chunk hf hfill hl, fun i hi => readFrame_built s.engine hlen hi,
    (concatBytes_frameOf_crc s.engine.blk hlen).symm, rfl, rfl, rfl, rfl, rfl, readPay_congr rfl, hf, rfl, rfl, rfl⟩

end Sys2Proof.Machine
end

section
/-! The commands that read a frame (42_framer R137 to R139). -/

namespace Sys2Proof.Machine

/-- R137, R208: `FRM.RD` with no valid frame, when it is not Faulted. -/
theorem exec_frmRd_of_invalid {s : State} (hf : s.engine.fault = .none) (hv : s.engine.fvalid = false) :
    exec .frmRd s = .next (raised s .frameInvalid 0x4100#16) :=
  (unlessFaulted_of_running hf _).trans (if_pos hv)

/-- R137, R209: `FRM.RD` at the end of a valid frame, when it is not Faulted. -/
theorem exec_frmRd_of_end {s : State} (hf : s.engine.fault = .none) (hv : s.engine.fvalid = true)
    (hp : s.engine.rdptr = 133#8) : exec .frmRd s = .next (raised s .frameUnderrun 0x4100#16) :=
  (unlessFaulted_of_running hf _).trans ((if_neg (by simp [hv])).trans (if_pos hp))

/-- R137: `FRM.RD` with a byte at `RDPTR`, when it is not Faulted. -/
theorem exec_frmRd_of_byte {s : State} {b : Byte} (hf : s.engine.fault = .none) (hv : s.engine.fvalid = true)
    (hb : readFrame s.engine s.engine.rdptr.toNat = .ok b) :
    exec .frmRd s =
      .next (after s { s.engine with rdptr := s.engine.rdptr + 1#8 } (some (b.setWidth 16))) := by
  have hlt := (readFrame_cases hb).1
  have hne : s.engine.rdptr ≠ 133#8 := fun h => by simp [h] at hlt
  refine (unlessFaulted_of_running hf _).trans ((if_neg (by simp [hv])).trans ((if_neg hne).trans ?_))
  rw [bufferIndex, hb]
  rfl

/-- R138: what `FRM.REWIND` does when it is not Faulted. -/
theorem exec_frmRewind_of_running {s : State} (hf : s.engine.fault = .none) :
    exec .frmRewind s = .next (after s { s.engine with rdptr := 0#8 } none) :=
  unlessFaulted_of_running hf _

/-- R75, R139: the word of `FRM.PEEK` is its opcode with the index in the low byte. -/
theorem encode_frmPeek (x : Byte) : encode (.frmPeek x) = 0x4300#16 + x.setWidth 16 :=
  congrArg (0x4300#16 + ·) (BitVec.ofNat_toNat 16 x)

/-- R139, R208: `FRM.PEEK` with no valid frame, when it is not Faulted. -/
theorem exec_frmPeek_of_invalid {s : State} (hf : s.engine.fault = .none) (hv : s.engine.fvalid = false) (x : Byte) :
    exec (.frmPeek x) s = .next (raised s .frameInvalid (encode (.frmPeek x))) :=
  (unlessFaulted_of_running hf _).trans (if_pos hv)

/-- R139, R210: `FRM.PEEK` at an index outside a valid frame, when it is not Faulted. -/
theorem exec_frmPeek_of_outside {s : State} {x : Byte} (hf : s.engine.fault = .none) (hv : s.engine.fvalid = true)
    (hx : 133 ≤ x.toNat) : exec (.frmPeek x) s = .next (raised s .indexRange (encode (.frmPeek x))) :=
  (unlessFaulted_of_running hf _).trans ((if_neg (by simp [hv])).trans (if_pos hx))

/-- R139: `FRM.PEEK` with a byte at its index, when it is not Faulted. -/
theorem exec_frmPeek_of_byte {s : State} {x b : Byte} (hf : s.engine.fault = .none) (hv : s.engine.fvalid = true)
    (hb : readFrame s.engine x.toNat = .ok b) : exec (.frmPeek x) s = .next (answering s (b.setWidth 16)) := by
  have hlt : ¬ 133 ≤ x.toNat := Nat.not_le_of_lt (readFrame_cases hb).1
  refine (unlessFaulted_of_running hf _).trans ((if_neg (by simp [hv])).trans ((if_neg hlt).trans ?_))
  rw [bufferIndex, hb]
  rfl

/-- Settles O39: `FVALID` is tested before `RDPTR`; a byte that can be read stands below index 133, so the pointer
advances without a carry. -/
theorem frmRdReadsNextByte : Obligations.FrmRdReadsNextByte := by
  refine ⟨rfl, operandIsIllegal_of_formatZ (m := .frmRd) rfl, fun _ hf => unlessFaulted_of_faulted hf _,
    fun s b hf hv hb => ⟨s.engine.rdptr + 1#8, ?_, exec_frmRd_of_byte hf hv hb⟩,
    fun _ hf hv => exec_frmRd_of_invalid hf hv, fun _ hf hv hp => exec_frmRd_of_end hf hv hp⟩
  have hlt := (readFrame_cases hb).1
  exact BitVec.toNat_add_of_lt (show s.engine.rdptr.toNat + 1 < 2 ^ 8 by omega)

/-- Settles O40: the word by its row, the illegal words by the format, the effect by the Faulted test. -/
theorem frmRewindResetsPointer : Obligations.FrmRewindResetsPointer :=
  ⟨rfl, operandIsIllegal_of_formatZ (m := .frmRewind) rfl, fun _ hf => unlessFaulted_of_faulted hf _,
    fun _ hf => exec_frmRewind_of_running hf⟩

/-- Settles O41: `FVALID` is tested before the index, and a byte that can be read stands below index 133. -/
theorem frmPeekReadsIndexedByte : Obligations.FrmPeekReadsIndexedByte := by
  intro x
  rw [← encode_frmPeek]
  exact ⟨rfl, fun _ hf => unlessFaulted_of_faulted hf _, fun _ _ hf hv hb => exec_frmPeek_of_byte hf hv hb,
    fun _ hf hv => exec_frmPeek_of_invalid hf hv x, fun _ hf hv hx => exec_frmPeek_of_outside hf hv hx⟩

end Sys2Proof.Machine
end

section
/-! The fields of the status word and the commands `NOP` and `STAT.RD` (10_state R30, 43_status R160, R161). -/

namespace Sys2Proof.Machine

/-- R30: the three fields add up as numbers, since none of them overflows the word. -/
theorem statusWord_toNat (e : Engine) :
    (statusWord e).toNat = e.fault.code.toNat * 2 ^ 13 + e.fvalid.toNat * 2 ^ 8 + e.fill.toNat := by
  have hvalid := e.fvalid.toNat_lt
  simp [statusWord, Nat.shiftLeft_eq]
  omega

/-- R161: bits 15:13 of the status word are the fault cause code. -/
theorem statusWord_code (e : Engine) : (statusWord e).extractLsb' 13 3 = e.fault.code := by
  have hvalid := e.fvalid.toNat_lt
  apply BitVec.eq_of_toNat_eq
  rw [BitVec.extractLsb'_toNat, statusWord_toNat, Nat.shiftRight_eq_div_pow]
  omega

/-- R161: bits 12:9 of the status word are zero. -/
theorem statusWord_zero_bits (e : Engine) : (statusWord e).extractLsb' 9 4 = 0#4 := by
  have hvalid := e.fvalid.toNat_lt
  apply BitVec.eq_of_toNat_eq
  rw [BitVec.extractLsb'_toNat, statusWord_toNat, Nat.shiftRight_eq_div_pow, BitVec.toNat_zero]
  omega

/-- R161: bit 8 of the status word is `FVALID`. -/
theorem statusWord_fvalid (e : Engine) : (statusWord e).getLsbD 8 = e.fvalid := by
  have hbit : (statusWord e).toNat / 2 ^ 8 % 2 = e.fvalid.toNat := by
    have hvalid := e.fvalid.toNat_lt
    rw [statusWord_toNat]
    omega
  rw [BitVec.getLsbD, Nat.testBit_eq_decide_div_mod_eq, hbit]
  cases e.fvalid <;> rfl

/-- R161: bits 7:0 of the status word are `FILL`. -/
theorem statusWord_fill (e : Engine) : (statusWord e).extractLsb' 0 8 = e.fill := by
  apply BitVec.eq_of_toNat_eq
  rw [BitVec.extractLsb'_toNat, statusWord_toNat, Nat.shiftRight_eq_div_pow]
  omega

/-- R160: what `NOP` does, Faulted or not. -/
theorem exec_nop (s : State) : exec .nop s = .next (silent s) := rfl

/-- R161: what `STAT.RD` does, Faulted or not. -/
theorem exec_statRd (s : State) : exec .statRd s = .next (answering s (statusWord s.engine)) := rfl

/-- Settles O18: the word by its row, the illegal words by the format, each field from the sum of the three. -/
theorem statRdRespondsStatus : Obligations.StatRdRespondsStatus :=
  ⟨rfl, operandIsIllegal_of_formatZ (m := .statRd) rfl, fun s =>
    ⟨statusWord s.engine, exec_statRd s, rfl, statusWord_code _, statusWord_zero_bits _, statusWord_fvalid _,
      statusWord_fill _⟩⟩

/-- Settles O17: the word by its row, the illegal words by the format; `NOP` makes no Faulted test. -/
theorem nopDoesNothing : Obligations.NopDoesNothing :=
  ⟨rfl, operandIsIllegal_of_formatZ (m := .nop) rfl, exec_nop⟩

end Sys2Proof.Machine
end

section
/-! A word by its fields: which row of the table it matches, and which words are illegal (30_encoding R56, R75, R77). -/

namespace Sys2Proof

/-- R56: a word is put together from its opcode and its operand. -/
theorem word_eq_opcode_operand (w : Word) :
    w = (cmdOpcode w).setWidth 16 <<< 8 + (cmdOperand w).setWidth 16 := by
  have hlt := w.isLt
  have hword := word_toNat w
  apply BitVec.eq_of_toNat_eq
  simp [Nat.shiftLeft_eq]
  omega

/-- R75: the mask of a format I row leaves the opcode in its place. -/
theorem and_mask_i_eq_opcode (w : Word) : w &&& 0xFF00#16 = (cmdOpcode w).setWidth 16 <<< 8 :=
  calc w &&& 0xFF00#16 = w - (cmdOperand w).setWidth 16 := and_mask_i w
    _ = (cmdOpcode w).setWidth 16 <<< 8 + (cmdOperand w).setWidth 16 - (cmdOperand w).setWidth 16 :=
      congrArg (· - (cmdOperand w).setWidth 16) (word_eq_opcode_operand w)
    _ = (cmdOpcode w).setWidth 16 <<< 8 := BitVec.add_sub_cancel ..

/-- R70, R75: a row's match and mask follow from its command's opcode and format. -/
theorem opcodeTable_row : ∀ r ∈ opcodeTable, r.pattern = r.mnemonic.opcode.setWidth 16 <<< 8 ∧
    r.mask = if r.mnemonic.format = .z then 0xFFFF#16 else 0xFF00#16 := by decide

/-- R75: a row matches the words with its opcode; in format Z the operand has to be 0 too. -/
theorem rowMatches_iff {r : OpcodeRow} (hr : r ∈ opcodeTable) (w : Word) :
    rowMatches w r = true ↔
      cmdOpcode w = r.mnemonic.opcode ∧ (r.mnemonic.format = .z → cmdOperand w = 0#8) := by
  obtain ⟨hpattern, hmask⟩ := opcodeTable_row r hr
  have hop : cmdOpcode r.pattern = r.mnemonic.opcode := by
    rw [hpattern]
    simpa using cmdOpcode_shift_add r.mnemonic.opcode 0#8
  constructor
  · intro hm
    refine ⟨(rowMatches_opcode hr hm).trans hop, fun hz => ?_⟩
    obtain ⟨hall, hzero⟩ := opcodeTable_formatZ hz r hr hop.symm
    have hw : w &&& r.mask = r.pattern := of_decide_eq_true hm
    rw [hall, and_mask_z] at hw
    rw [hw, hzero]
  · rintro ⟨hopcode, hoperand⟩
    refine decide_eq_true ?_
    rw [hpattern, hmask, ← hopcode]
    split
    next hz =>
      rw [and_mask_z]
      simpa [hoperand hz] using word_eq_opcode_operand w
    next => exact and_mask_i_eq_opcode w

/-- R70, R78: the word of a command is its opcode and its operand, which is 0 in format Z. -/
theorem encode_command {m : Mnemonic} {b : Byte} (hz : m.format = .z → b = 0#8) :
    encode (m.command b) = m.opcode.setWidth 16 <<< 8 + b.setWidth 16 := by
  cases m with
  | crcByte | blkSet | payPush | frmPeek => simp [encode, Line.word, Mnemonic.command, Instr.line]
  | _ =>
    obtain rfl := hz rfl
    rfl

/-- R75: a word that decodes to a command is that command's word. -/
theorem eq_encode_of_decode {w : Word} {i : Instr} (h : decode w = .ok i) : w = encode i := by
  obtain ⟨r, hr, hm, rfl⟩ := decode_cases h
  obtain ⟨hopcode, hoperand⟩ := (rowMatches_iff hr w).1 hm
  rw [encode_command hoperand, ← hopcode]
  exact word_eq_opcode_operand w

/-- R77: a word is illegal when no row has its opcode, or only a format Z row has and the operand is not 0. -/
theorem decode_error_iff_opcode (w : Word) : (∃ r, decode w = .error r) ↔
    cmdOpcode w ∉ opcodeTable.map (·.mnemonic.opcode) ∨
    (cmdOpcode w ∉ (opcodeTable.filter (·.mnemonic.format ≠ .z)).map (·.mnemonic.opcode) ∧
      cmdOperand w ≠ 0#8) := by
  have hrows : (∃ r, decode w = .error r) ↔ ∀ r ∈ opcodeTable,
      ¬ (cmdOpcode w = r.mnemonic.opcode ∧ (r.mnemonic.format = .z → cmdOperand w = 0#8)) := by
    rw [decode_error_iff]
    exact forall₂_congr fun r hr => by rw [← rowMatches_iff hr w, Bool.not_eq_true]
  rw [hrows]
  constructor
  · intro hno
    by_cases hzero : cmdOperand w = 0#8
    · refine .inl fun hlisted => ?_
      obtain ⟨r, hr, hop⟩ := List.mem_map.1 hlisted
      exact hno r hr ⟨hop.symm, fun _ => hzero⟩
    · refine .inr ⟨fun hformat => ?_, hzero⟩
      obtain ⟨r, hfiltered, hop⟩ := List.mem_map.1 hformat
      obtain ⟨hr, hi⟩ := List.mem_filter.1 hfiltered
      exact hno r hr ⟨hop.symm, fun hz => absurd hz (of_decide_eq_true hi)⟩
  · rintro (hunlisted | ⟨hformat, hne⟩) r hr ⟨hop, hzero⟩
    · exact hunlisted (List.mem_map.2 ⟨r, hr, hop.symm⟩)
    · have hi : r.mnemonic.format ≠ .z := fun hz => hne (hzero hz)
      exact hformat (List.mem_map.2 ⟨r, List.mem_filter.2 ⟨hr, decide_eq_true hi⟩, hop.symm⟩)

end Sys2Proof
end

section
/-! Illegal words, the Faulted condition and how a step enters and leaves it (60_exceptions R202, R205, R207, R211). -/

namespace Sys2Proof.Machine

/-- Settles O5: which words are illegal by the table's rows, what such a word does by the Faulted test. -/
theorem illegalWordRaisesFault : Obligations.IllegalWordRaisesFault :=
  ⟨decode_error_iff_opcode, rfl, fun _ _ _ r hin hr hf => step_of_illegal hin ⟨r, hr⟩ hf⟩

/-- R60: a step on a legal word executes its command, the word taken from the port. -/
theorem step_of_legal {s : State} {w : Word} {rest : List PortEvent} {i : Instr} (hin : s.inbox = .cmd w :: rest)
    (hdec : decode w = .ok i) : step s = exec i { s with inbox := rest } := by
  simp [step, fetch, hin, hdec, withInbox]

/-- R230: a step on a reset leaves the engine as R35 says. -/
theorem step_of_reset {s : State} {rest : List PortEvent} (hin : s.inbox = .rst :: rest) :
    step s = .next { engine := Engine.reset, inbox := rest, resp := none } := by
  simp [step, fetch, hin, takeReset, complete]

/-- R222: a step with nothing given keeps the state. -/
theorem step_of_idle {s : State} (hin : s.inbox = []) : step s = .next s := by
  simp [step, fetch, hin, takeIdle]

/-- R207: a step on an illegal word, while Faulted, takes the word and does nothing. -/
theorem step_of_illegal_of_faulted {s : State} {w : Word} {rest : List PortEvent} {r : IllegalWord}
    (hin : s.inbox = .cmd w :: rest) (hdec : decode w = .error r) (hf : s.engine.fault ≠ .none) :
    step s = .next (silent { s with inbox := rest }) := by
  have hstep : step s = takeIllegal w (withInbox s rest) := by simp [step, fetch, hin, hdec]
  exact hstep.trans (unlessFaulted_of_faulted (s := withInbox s rest) hf _)

/-- R207: while Faulted a command other than `STAT.RD` and `FLT.RD` does nothing. -/
theorem exec_of_faulted {i : Instr} {s : State} (hf : s.engine.fault ≠ .none) (hstat : i ≠ .statRd)
    (hflt : i ≠ .fltRd) : exec i s = .next (silent s) := by
  cases i with
  | nop => rfl
  | statRd => exact absurd rfl hstat
  | fltRd => exact absurd rfl hflt
  | _ => exact unlessFaulted_of_faulted hf _

/-- Settles O10: the two words that respond decode to `STAT.RD` and `FLT.RD`; no other word decodes to either. -/
theorem faultedEngineIsFrozen : Obligations.FaultedEngineIsFrozen := by
  intro s w rest hin hf
  split_ifs with hstat hflt
  · subst hstat
    exact step_of_legal hin (i := .statRd) rfl
  · subst hflt
    exact step_of_legal hin (i := .fltRd) rfl
  · cases hdec : decode w with
    | error r => exact step_of_illegal_of_faulted hin hdec hf
    | ok i =>
      have hw := eq_encode_of_decode hdec
      rw [step_of_legal hin hdec]
      exact exec_of_faulted hf (fun hi => hstat (hw.trans (congrArg encode hi)))
        (fun hi => hflt (hw.trans (congrArg encode hi)))

/-- Settles O12: a word given to a Faulted engine keeps it, whatever the word; a reset ignores the state before it. -/
theorem onlyResetClearsFault : Obligations.OnlyResetClearsFault := by
  refine ⟨fun s t hf hnorst hstep => ?_, fun s rest _ hin => ⟨_, step_of_reset hin, rfl, rfl, rfl, rfl⟩⟩
  match hin : s.inbox with
  | [] =>
    rw [step_of_idle hin] at hstep
    cases hstep
    rfl
  | .rst :: rest => exact absurd hin (hnorst rest)
  | .cmd w :: rest =>
    rw [faultedEngineIsFrozen s w rest hin hf] at hstep
    cases hstep
    rfl

/-- R27, R28: the effect of a command's own rule keeps `FAULT` and `FCMD`. -/
theorem effect_keeps_fault {i : Instr} {s t : State} (h : Effect i s t) :
    t.engine.fault = s.engine.fault ∧ t.engine.fcmd = s.engine.fcmd := by
  cases i with
  | payPush =>
    obtain ⟨_, rfl⟩ := h
    exact ⟨rfl, rfl⟩
  | frmBuild =>
    obtain ⟨_, _, _, rfl⟩ := h
    exact ⟨rfl, rfl⟩
  | frmRd | frmPeek =>
    obtain ⟨_, _, _, _, rfl⟩ := h
    exact ⟨rfl, rfl⟩
  | _ =>
    obtain rfl := h
    exact ⟨rfl, rfl⟩

/-- R201: a cause that a command raises is a fault. -/
theorem raises_ne_none {i : Instr} {e : Engine} {c : FaultCode} (h : Raises i e c) : c ≠ .none := by
  rintro rfl
  exact h

/-- R205: a step that raises a fault for the word given writes `FAULT` and `FCMD` only, and `fault_o` becomes 1. -/
theorem raised_is_precise {s t : State} {w : Word} {rest : List PortEvent} {c : FaultCode}
    (hin : s.inbox = .cmd w :: rest) (hc : c ≠ .none) (ht : t = raised { s with inbox := rest } c w) :
    t.engine.fault ≠ .none ∧ ∃ v events, s.inbox = .cmd v :: events ∧
      t.engine = { s.engine with fault := t.engine.fault, fcmd := v } ∧ t.resp = none ∧
        faultOut t.engine = true := by
  subst ht
  exact ⟨hc, w, rest, hin, rfl, rfl, (faultOut_eq_true _).2 hc⟩

/-- Settles O11: of all that a step can do, only a raised fault and a reset write `FAULT` or `FCMD`; the word a
command records is the word given, since decoding is one to one. -/
theorem faultEntryIsPrecise : Obligations.FaultEntryIsPrecise := by
  intro s t hstep
  rcases step_cases hstep with
    ⟨_, rfl⟩ | ⟨rest, hin, rfl⟩ | ⟨w, rest, i, hin, hdec, hexec⟩ | ⟨w, rest, r, hin, _, hillegal⟩
  · exact .inl ⟨rfl, rfl⟩
  · exact .inr (.inl ⟨rest, hin, rfl⟩)
  · rcases exec_cases hexec with ⟨_, rfl⟩ | ⟨_, heffect⟩ | ⟨hf, c, hraises, ht⟩
    · exact .inl ⟨rfl, rfl⟩
    · exact .inl (effect_keeps_fault (s := { s with inbox := rest }) heffect)
    · rw [← eq_encode_of_decode hdec] at ht
      exact .inr (.inr ⟨hf, raised_is_precise hin (raises_ne_none hraises) ht⟩)
  · rcases takeIllegal_cases hillegal with ⟨_, rfl⟩ | ⟨hf, ht⟩
    · exact .inl ⟨rfl, rfl⟩
    · exact .inr (.inr ⟨hf, raised_is_precise hin (by decide) ht⟩)

/-- R203, R204, R208 to R210: under the condition of a cause, and while not Faulted, the command raises it. -/
theorem exec_of_raises {i : Instr} {s : State} {c : FaultCode} (hf : s.engine.fault = .none)
    (h : Raises i s.engine c) : exec i s = .next (raised s c (encode i)) := by
  cases c with
  | none | illegalCmd => exact h.elim
  | payOverflow =>
    obtain ⟨b, rfl, hfull⟩ := h
    exact exec_payPush_of_full hf hfull b
  | emptyBuild =>
    obtain ⟨rfl, hempty⟩ := h
    exact exec_frmBuild_of_empty hf hempty
  | frameInvalid =>
    obtain ⟨rfl | ⟨x, rfl⟩, hv⟩ := h
    · exact exec_frmRd_of_invalid hf hv
    · exact exec_frmPeek_of_invalid hf hv x
  | frameUnderrun =>
    obtain ⟨rfl, hv, hend⟩ := h
    exact exec_frmRd_of_end hf hv hend
  | indexRange =>
    obtain ⟨x, rfl, hv, hx⟩ := h
    exact exec_frmPeek_of_outside hf hv hx

/-- A command given with `FAULT = 0` leaves it so, or raises one cause under its condition. -/
theorem exec_cases_of_running {i : Instr} {s t : State} (hf : s.engine.fault = .none) (h : exec i s = .next t) :
    t.engine.fault = .none ∨ ∃ c, Raises i s.engine c ∧ t = raised s c (encode i) := by
  rcases exec_cases h with ⟨hfaulted, _⟩ | ⟨_, heffect⟩ | ⟨_, hraised⟩
  · exact absurd hf hfaulted
  · exact .inl ((effect_keeps_fault heffect).1.trans hf)
  · exact .inr hraised

/-- R201: a command given with `FAULT = 0` raises a cause exactly under the cause's condition. -/
theorem exec_fault_eq_iff {i : Instr} {s t : State} (hf : s.engine.fault = .none) (h : exec i s = .next t)
    {c : FaultCode} (hc : c ≠ .none) : t.engine.fault = c ↔ Raises i s.engine c := by
  constructor
  · rintro rfl
    rcases exec_cases_of_running hf h with hnone | ⟨c, hraises, rfl⟩
    · exact absurd hnone hc
    · exact hraises
  · intro hraises
    rw [exec_of_raises hf hraises] at h
    cases h
    rfl

/-- Settles O15: the codes by the table of R201, each cause by its condition, the record by what raising does. -/
theorem faultsExactlyUnderTheirConditions : Obligations.FaultsExactlyUnderTheirConditions := by
  refine ⟨rfl, fun i s t hf h => ⟨?_, ?_, ?_, ?_, ?_, ?_, fun hne => ?_⟩⟩
  · exact (exec_fault_eq_iff hf h (by decide)).trans exists_and_right
  · exact exec_fault_eq_iff hf h (by decide)
  · exact exec_fault_eq_iff hf h (by decide)
  · exact exec_fault_eq_iff hf h (by decide)
  · refine (exec_fault_eq_iff hf h (by decide)).trans ?_
    simp only [Raises, ← exists_and_right, and_assoc, and_comm (a := s.engine.fvalid = true)]
  · exact (exec_fault_eq_iff hf h (by decide)).1
  · rcases exec_cases_of_running hf h with hnone | ⟨c, _, rfl⟩
    · exact absurd hnone hne
    · exact ⟨rfl, rfl⟩

end Sys2Proof.Machine
end

section
/-! Encoding and decoding agree: one word for each command, one command for each legal word (30_encoding R70, R75,
R78). -/

namespace Sys2Proof

/-- `cmd[7:0]` of a command: its operand, or 0x00 where it has none (R70, R74). -/
def Instr.operand (i : Instr) : Byte := BitVec.ofNat 8 (i.line.operand.getD 0)

/-- R74: the operand of a command is an unsigned value of 8 bits. -/
theorem Instr.operand_toNat (i : Instr) : i.operand.toNat = i.line.operand.getD 0 := by
  cases i with
  | crcByte b | blkSet b | payPush b | frmPeek b => simp [Instr.operand, Instr.line]
  | _ => rfl

/-- R70: a command is its mnemonic and its operand. -/
theorem Instr.command_mnemonic_operand (i : Instr) : i.line.mnemonic.command i.operand = i := by
  cases i <;> simp [Instr.operand, Instr.line, Mnemonic.command]

/-- R70: a format Z command has 0x00 in `cmd[7:0]`. -/
theorem Instr.operand_of_formatZ {i : Instr} (hz : i.line.mnemonic.format = .z) : i.operand = 0#8 := by
  cases i with
  | crcByte | blkSet | payPush | frmPeek => cases hz
  | _ => rfl

/-- R70, R78: the word of a command is its opcode and its operand. -/
theorem encode_eq_opcode_operand (i : Instr) :
    encode i = i.line.mnemonic.opcode.setWidth 16 <<< 8 + i.operand.setWidth 16 := by
  conv_lhs => rw [← i.command_mnemonic_operand]
  exact encode_command Instr.operand_of_formatZ

/-- R70: the opcode of a command's word. -/
@[simp] theorem cmdOpcode_encode (i : Instr) : cmdOpcode (encode i) = i.line.mnemonic.opcode := by
  rw [encode_eq_opcode_operand, cmdOpcode_shift_add]

/-- R74: the operand of a command's word, 0x00 where it has none. -/
@[simp] theorem cmdOperand_encode (i : Instr) : cmdOperand (encode i) = i.operand := by
  rw [encode_eq_opcode_operand, cmdOperand_shift_add]

/-- Settles O6: the word is its opcode and its operand, and each can be read back. -/
theorem wordFieldsOfCommand : Obligations.WordFieldsOfCommand :=
  fun i => ⟨cmdOpcode_encode i, by rw [cmdOperand_encode, i.operand_toNat]⟩

/-- R75: every mnemonic has a row. -/
theorem opcodeTable_complete (m : Mnemonic) : ∃ r ∈ opcodeTable, r.mnemonic = m := by
  cases m <;> decide

/-- R75: no two rows have one opcode. -/
theorem opcodeTable_opcode_unique : ∀ r ∈ opcodeTable, ∀ q ∈ opcodeTable,
    r.mnemonic.opcode = q.mnemonic.opcode → r.mnemonic = q.mnemonic := by decide

/-- R75: a row matches the word of a command exactly when it is the row of the command's mnemonic. -/
theorem rowMatches_encode_iff {r : OpcodeRow} (hr : r ∈ opcodeTable) (i : Instr) :
    rowMatches (encode i) r = true ↔ r.mnemonic = i.line.mnemonic := by
  rw [rowMatches_iff hr, cmdOpcode_encode, cmdOperand_encode]
  constructor
  · rintro ⟨hop, _⟩
    obtain ⟨q, hq, hm⟩ := opcodeTable_complete i.line.mnemonic
    exact (opcodeTable_opcode_unique r hr q hq (by rw [hm, hop])).trans hm
  · intro hm
    rw [hm]
    exact ⟨rfl, Instr.operand_of_formatZ⟩

/-- R70, R75, R78: the word of a command decodes to the command. -/
theorem decode_encode (i : Instr) : decode (encode i) = .ok i := by
  cases hdec : decode (encode i) with
  | error e =>
    obtain ⟨r, hr, hm⟩ := opcodeTable_complete i.line.mnemonic
    have hmiss := (decode_error_iff _).1 ⟨e, hdec⟩ r hr
    rw [(rowMatches_encode_iff hr i).2 hm] at hmiss
    cases hmiss
  | ok j =>
    obtain ⟨r, hr, hmatch, rfl⟩ := decode_cases hdec
    rw [(rowMatches_encode_iff hr i).1 hmatch, cmdOperand_encode, i.command_mnemonic_operand]

/-- Settles O2: the row of the command's own mnemonic matches its word, and no other row does. -/
theorem decodeOfEncode : Obligations.DecodeOfEncode := fun i _ => decode_encode i

/-- Settles O3: the word of a decoded command is its encoding, and the encoding decodes. -/
theorem decodedWordIsTheEncoding : Obligations.DecodedWordIsTheEncoding :=
  fun _ i => ⟨eq_encode_of_decode, fun hw => hw ▸ decode_encode i⟩

/-- Settles O1: each legal word is the encoding of its command; the two illegal words are refused by evaluation. -/
theorem commandWordsDecode : Obligations.CommandWordsDecode :=
  ⟨decode_encode .nop, decode_encode .fltRd, decode_encode (.crcByte 0x31#8), decode_encode (.blkSet 0xFE#8),
    decode_encode (.payPush 0xAA#8), decode_encode (.frmPeek 132#8), rfl, rfl⟩

/-! ### How many words are legal -/

/-- The opcodes of the rows of one format (R75). -/
def opcodesOfFormat (f : Format) : Finset Byte :=
  ((opcodeTable.filter (·.mnemonic.format = f)).map (·.mnemonic.opcode)).toFinset

/-- The opcode and the operand of a legal word: any operand in format I, 0x00 in format Z (R70, R75). -/
def legalFields : Finset (Byte × Byte) :=
  opcodesOfFormat .z ×ˢ {0#8} ∪ opcodesOfFormat .i ×ˢ Finset.univ

/-- R75: the opcodes of a format are those of its rows. -/
theorem mem_opcodesOfFormat {f : Format} {p : Byte} :
    p ∈ opcodesOfFormat f ↔ ∃ r ∈ opcodeTable, r.mnemonic.format = f ∧ r.mnemonic.opcode = p := by
  simp [opcodesOfFormat, and_assoc]

/-- R56: a word is its two fields. -/
def wordFields : Word ≃ Byte × Byte where
  toFun w := (cmdOpcode w, cmdOperand w)
  invFun p := p.1.setWidth 16 <<< 8 + p.2.setWidth 16
  left_inv w := (word_eq_opcode_operand w).symm
  right_inv p := by simp

/-- R75, R77: a word decodes to a command exactly when a row matches it. -/
theorem decode_ok_iff (w : Word) : (∃ i, decode w = .ok i) ↔ ∃ r ∈ opcodeTable, rowMatches w r = true := by
  constructor
  · rintro ⟨i, hdec⟩
    obtain ⟨r, hr, hmatch, _⟩ := decode_cases hdec
    exact ⟨r, hr, hmatch⟩
  · rintro ⟨r, hr, hmatch⟩
    cases hdec : decode w with
    | error e => simp [(decode_error_iff w).1 ⟨e, hdec⟩ r hr] at hmatch
    | ok i => exact ⟨i, rfl⟩

/-- R75: a word decodes to a command exactly when its opcode and operand are those of a legal word. -/
theorem decode_ok_iff_fields (w : Word) : (∃ i, decode w = .ok i) ↔ wordFields w ∈ legalFields := by
  rw [decode_ok_iff, legalFields, Finset.mem_union, Finset.mem_product, Finset.mem_product, mem_opcodesOfFormat,
    mem_opcodesOfFormat, Finset.mem_singleton]
  constructor
  · rintro ⟨r, hr, hmatch⟩
    obtain ⟨hop, hzero⟩ := (rowMatches_iff hr w).1 hmatch
    cases hformat : r.mnemonic.format with
    | z => exact .inl ⟨⟨r, hr, hformat, hop.symm⟩, hzero hformat⟩
    | i => exact .inr ⟨⟨r, hr, hformat, hop.symm⟩, Finset.mem_univ _⟩
  · rintro (⟨⟨r, hr, hformat, hop⟩, hzero⟩ | ⟨⟨r, hr, hformat, hop⟩, _⟩)
    · exact ⟨r, hr, (rowMatches_iff hr w).2 ⟨hop.symm, fun _ => hzero⟩⟩
    · exact ⟨r, hr, (rowMatches_iff hr w).2 ⟨hop.symm, fun hz => by simp [hz] at hformat⟩⟩

/-- R75: 12 opcodes of format Z with one operand each, 4 of format I with every operand. -/
theorem legalFields_card : legalFields.card = 12 * 1 + 4 * 256 := by
  have hdisjoint : Disjoint (opcodesOfFormat .z ×ˢ ({0#8} : Finset Byte)) (opcodesOfFormat .i ×ˢ Finset.univ) :=
    Finset.disjoint_product.2 (.inl (by decide))
  have hz : (opcodesOfFormat .z).card = 12 := by decide
  have hi : (opcodesOfFormat .i).card = 4 := by decide
  have hbytes : (Finset.univ : Finset Byte).card = 256 := by
    rw [Finset.card_univ, Fintype.card_congr BitVec.equivFin.toEquiv, Fintype.card_fin]
    rfl
  rw [legalFields, Finset.card_union_of_disjoint hdisjoint, Finset.card_product, Finset.card_product,
    Finset.card_singleton, hz, hi, hbytes]

/-- Settles O4: a legal word is its opcode and operand, which are counted by format. -/
theorem legalWordsAreCounted : Obligations.LegalWordsAreCounted := 
  calc Nat.card { w : Word // ∃ i, decode w = .ok i }
    _ = Nat.card { p // p ∈ legalFields } := Nat.card_congr (wordFields.subtypeEquiv decode_ok_iff_fields)
    _ = legalFields.card := Nat.subtype_card legalFields fun _ => Iff.rfl
    _ = 12 * 1 + 4 * 256 := legalFields_card

end Sys2Proof
end

section
/-! The chunk and the frame as the buffers hold them (10_state R31, R32; 42_framer R133 to R135). -/

namespace Sys2Proof.Machine

/-- R133: with `FILL = 0` the chunk is empty. -/
theorem readChunk_of_empty {e : Engine} (h : e.fill = 0#8) : readChunk e = .ok [] := by
  simp [readChunk, bufferIndex, h, readPayRun]

/-- R135: the chunk has `FILL` bytes. -/
theorem readChunk_fill {e : Engine} {l : List Byte} (h : readChunk e = .ok l) : e.fill.toNat = l.length :=
  ((readChunk_eq_ok e l).1 h).1.symm

/-- R134: a push appends its byte to the chunk. -/
theorem readChunk_pushed {e : Engine} {l : List Byte} (h : readChunk e = .ok l) (hlt : e.fill.toNat < 128) (b : Byte) :
    readChunk (pushed e b) = .ok (l ++ [b]) := by
  obtain ⟨hlen, hbytes⟩ := (readChunk_eq_ok e l).1 h
  refine (readChunk_eq_ok _ _).2 ⟨by simp [pushed_fill_toNat hlt, hlen], fun k hk => ?_⟩
  rw [readPay_pushed hlt, ← hlen]
  split
  next hlast => simp [hlast]
  next hother =>
    have hin : k < l.length := by
      simp at hk
      omega
    rw [hbytes k hin, List.getElem_append_left hin]

/-- R137: the pointer advances inside the frame without a carry. -/
theorem rdptr_succ_toNat {p : Byte} (h : p.toNat < 133) : (p + 1#8).toNat = p.toNat + 1 :=
  BitVec.toNat_add_of_lt (show p.toNat + 1 < 2 ^ 8 by omega)

/-- R50: there is no frame byte from index 133 on. -/
theorem readFrame_outside (e : Engine) {i : Nat} (hi : 133 ≤ i) : readFrame e i = .error .frameOutside :=
  if_neg (Nat.not_lt_of_le hi)

end Sys2Proof.Machine
end

section
/-! The invariant of 10_state R34: reset meets it and every step keeps it. -/

namespace Sys2Proof.Machine

/-- R35: the engine after reset meets the invariant. -/
theorem engineReset_inv : Engine.reset.Inv where
  fill_le := Nat.zero_le _
  rdptr_le := Nat.zero_le _
  rdptr_zero _ := rfl
  chunk_written := ⟨[], rfl⟩
  frame_current h := by cases h
  fcmd_zero _ := rfl
  pay_wf := rfl
  frame_wf := rfl

/-- Settles O54: the registers have their reset values and both buffers are empty. -/
theorem resetMeetsTheInvariant : Obligations.ResetMeetsTheInvariant := ⟨engineReset_inv, rfl⟩

/-- R34: no invariant speaks of `CRC`. -/
theorem inv_with_crc {e : Engine} (h : e.Inv) (c : Word) : ({ e with crc := c } : Engine).Inv :=
  ⟨h.fill_le, h.rdptr_le, h.rdptr_zero, h.chunk_written, h.frame_current, h.fcmd_zero, h.pay_wf, h.frame_wf⟩

/-- R34: the read pointer may move up to 133, and stays at 0 without a valid frame. -/
theorem inv_with_rdptr {e : Engine} (h : e.Inv) {p : Byte} (hp : p.toNat ≤ 133)
    (hzero : e.fvalid = false → p = 0#8) : ({ e with rdptr := p } : Engine).Inv :=
  ⟨h.fill_le, hp, hzero, h.chunk_written, h.frame_current, h.fcmd_zero, h.pay_wf, h.frame_wf⟩

/-- R205: a latched fault needs no record of 0x0000. -/
theorem inv_with_fault {e : Engine} (h : e.Inv) {c : FaultCode} (hc : c ≠ .none) (w : Word) :
    ({ e with fault := c, fcmd := w } : Engine).Inv :=
  ⟨h.fill_le, h.rdptr_le, h.rdptr_zero, h.chunk_written, h.frame_current, fun hnone => absurd hnone hc, h.pay_wf,
    h.frame_wf⟩

/-- R24, R29: with the frame invalidated the invariant asks for the chunk, the fault record and the buffers' form. -/
theorem inv_invalidateFrame {e : Engine} (hfill : e.fill.toNat ≤ 128) (hchunk : ∃ l, readChunk e = .ok l)
    (hfcmd : e.fault = .none → e.fcmd = 0x0000#16) (hpay : e.pay.wf 128 = true) (hframe : e.frame.wf 133 = true) :
    (invalidateFrame e).Inv where
  fill_le := hfill
  rdptr_le := Nat.zero_le _
  rdptr_zero _ := rfl
  chunk_written := hchunk
  frame_current h := by cases h
  fcmd_zero := hfcmd
  pay_wf := hpay
  frame_wf := hframe

/-- R134: a push below 128 bytes keeps the invariant. -/
theorem inv_pushed {e : Engine} (h : e.Inv) (hlt : e.fill.toNat < 128) (b : Byte) : (pushed e b).Inv := by
  obtain ⟨l, hl⟩ := h.chunk_written
  have hfill : (pushed e b).fill.toNat ≤ 128 := (pushed_fill_toNat hlt b).trans_le hlt
  exact inv_invalidateFrame hfill ⟨_, readChunk_pushed hl hlt b⟩ h.fcmd_zero (memory_wf_write _ _ b h.pay_wf hlt)
    h.frame_wf

/-- R135: a build makes the frame that of `BLK` and the chunk. -/
theorem inv_built {e : Engine} (h : e.Inv) {l : List Byte} (hl : readChunk e = .ok l) (hfill : e.fill ≠ 0#8) :
    (built e l).Inv := by
  have hlen := readChunk_length hl
  have hpos : e.fill.toNat ≠ 0 := fun hz => hfill (BitVec.eq_of_toNat_eq hz)
  exact {
    fill_le := h.fill_le
    rdptr_le := Nat.zero_le _
    rdptr_zero := fun _ => rfl
    chunk_written := ⟨l, hl⟩
    frame_current := fun _ => ⟨Nat.one_le_iff_ne_zero.2 hpos, l, hl, fun _ hi => readFrame_built e hlen hi⟩
    fcmd_zero := h.fcmd_zero
    pay_wf := h.pay_wf
    frame_wf := memory_wf_ofBytes _ (frameOf_length e.blk hlen).le }

/-- R34: the effect of a command's own rule keeps the invariant. -/
theorem effect_keeps_inv {i : Instr} {s t : State} (h : Effect i s t) (hinv : s.engine.Inv) : t.engine.Inv := by
  cases i with
  | nop | statRd | fltRd | crcRd | blkRd | frmPos =>
    obtain rfl := h
    exact hinv
  | crcClr | crcByte =>
    obtain rfl := h
    exact inv_with_crc hinv _
  | blkSet | blkInc =>
    obtain rfl := h
    exact inv_invalidateFrame hinv.fill_le hinv.chunk_written hinv.fcmd_zero hinv.pay_wf hinv.frame_wf
  | payClr =>
    obtain rfl := h
    exact inv_invalidateFrame (Nat.zero_le _) ⟨[], readChunk_of_empty rfl⟩ hinv.fcmd_zero hinv.pay_wf hinv.frame_wf
  | payPush b =>
    obtain ⟨hlt, rfl⟩ := h
    exact inv_pushed hinv hlt b
  | frmBuild =>
    obtain ⟨hfill, l, hl, rfl⟩ := h
    exact inv_built hinv hl hfill
  | frmRd =>
    obtain ⟨hvalid, _, b, hb, rfl⟩ := h
    have hlt := (readFrame_cases hb).1
    exact inv_with_rdptr hinv ((rdptr_succ_toNat hlt).trans_le hlt) fun hinvalid => by simp [hvalid] at hinvalid
  | frmRewind =>
    obtain rfl := h
    exact inv_with_rdptr hinv (Nat.zero_le _) fun _ => rfl
  | frmPeek =>
    obtain ⟨_, _, _, _, rfl⟩ := h
    exact hinv

/-- R34: a command keeps the invariant, whether it does nothing, has its effect or raises a fault. -/
theorem exec_keeps_inv {i : Instr} {s t : State} (h : exec i s = .next t) (hinv : s.engine.Inv) : t.engine.Inv := by
  rcases exec_cases h with ⟨_, rfl⟩ | ⟨_, heffect⟩ | ⟨_, c, hraises, rfl⟩
  · exact hinv
  · exact effect_keeps_inv heffect hinv
  · exact inv_with_fault hinv (raises_ne_none hraises) _

/-- Settles O55: by what a step can do; a command keeps the invariant by its effect or its fault. -/
theorem stepKeepsTheInvariant : Obligations.StepKeepsTheInvariant := by
  intro s t hinv hstep
  rcases step_cases hstep with
    ⟨_, rfl⟩ | ⟨_, _, rfl⟩ | ⟨_, rest, _, _, _, hexec⟩ | ⟨w, rest, _, _, _, hillegal⟩
  · exact hinv
  · exact engineReset_inv
  · exact exec_keeps_inv (s := { s with inbox := rest }) hexec hinv
  · rcases takeIllegal_cases hillegal with ⟨_, rfl⟩ | ⟨_, rfl⟩
    · exact hinv
    · exact inv_with_fault hinv (by decide) w

end Sys2Proof.Machine
end

section
/-! Bytes no rule reads never show (10_state R31, R32; 70 R232): two states that differ at most there answer alike. -/

namespace Sys2Proof.Machine

section
variable {s t : State}

/-! ### What each shared operation answers from two indistinct states -/

/-- R72: the response is the same where the same is given. -/
theorem indistinct_completeWith (h : Indistinct s t) {v w : Word} (hvw : v = w) :
    IndistinctOutcome (completeWith v s.engine s) (completeWith w t.engine t) :=
  { h with resp := congrArg some hvw }

/-- R72: a command that only gives up the response. -/
theorem indistinct_complete (h : Indistinct s t) : IndistinctOutcome (complete s.engine s) (complete t.engine t) :=
  { h with resp := rfl }

/-- R205: the same fault is raised alike. -/
theorem indistinct_raiseFault (h : Indistinct s t) (c : FaultCode) (w : Word) :
    IndistinctOutcome (raiseFault c w s) (raiseFault c w t) :=
  { h with fault := rfl, fcmd := rfl, resp := rfl }

/-- R24, R32: behind an invalidated frame no byte of `FRAME` shows. -/
theorem indistinct_invalidateFrame (h : Indistinct s t) :
    IndistinctOutcome (complete (invalidateFrame s.engine) s) (complete (invalidateFrame t.engine) t) :=
  { h with fvalid := rfl, rdptr := rfl, resp := rfl, frame := fun hv => by cases hv }

/-- R206, R207: both states are Faulted, or both go on. -/
theorem indistinct_unlessFaulted (h : Indistinct s t) {k j : Host.Outcome State Fault Refusal}
    (hkj : IndistinctOutcome k j) : IndistinctOutcome (unlessFaulted s k) (unlessFaulted t j) := by
  by_cases hf : s.engine.fault = .none
  · rw [unlessFaulted_of_running hf, unlessFaulted_of_running (h.fault ▸ hf)]
    exact hkj
  · rw [unlessFaulted_of_faulted hf, unlessFaulted_of_faulted (h.fault ▸ hf)]
    exact indistinct_complete h

/-- A test with one answer in both states. -/
theorem indistinct_ite {p q : Prop} [Decidable p] [Decidable q] {k j k' j' : Host.Outcome State Fault Refusal}
    (hpq : p ↔ q) (hthen : p → IndistinctOutcome k j) (helse : ¬ p → IndistinctOutcome k' j') :
    IndistinctOutcome (if p then k else k') (if q then j else j') := by
  by_cases hp : p
  · rw [if_pos hp, if_pos (hpq.1 hp)]
    exact hthen hp
  · rw [if_neg hp, if_neg (mt hpq.2 hp)]
    exact helse hp

/-- An access with one answer in both states. -/
theorem indistinct_andThen {α : Type} {x y : Except Fault α} {k j : α → Host.Outcome State Fault Refusal}
    (hxy : x = y) (hkj : ∀ a, IndistinctOutcome (k a) (j a)) : IndistinctOutcome (andThen x k) (andThen y j) := by
  subst hxy
  cases x with
  | ok a => exact hkj a
  | error f => rfl

/-! ### What each command that reads or writes a buffer answers -/

/-- R134: a push into chunks that read alike gives chunks that read alike. -/
theorem readPay_pushed_congr {e f : Engine} (hfill : e.fill = f.fill)
    (hpay : ∀ i, i < e.fill.toNat → readPay e i = readPay f i) (hlt : e.fill.toNat < 128) (b : Byte) :
    ∀ i, i < (pushed e b).fill.toNat → readPay (pushed e b) i = readPay (pushed f b) i := by
  intro i hi
  rw [pushed_fill_toNat hlt] at hi
  rw [readPay_pushed hlt, readPay_pushed (hfill ▸ hlt), ← hfill]
  split
  next => rfl
  next hne => exact hpay i (by omega)

/-- R134: both states store the byte at `FILL`, or neither has room for it. -/
theorem indistinct_execPayPush (h : Indistinct s t) (b : Byte) :
    IndistinctOutcome (execPayPush b s) (execPayPush b t) := by
  refine indistinct_unlessFaulted h (indistinct_ite (by rw [h.fill])
    (fun _ => indistinct_raiseFault h _ _) fun _ => ?_)
  rw [bufferIndex, bufferIndex]
  by_cases hlt : s.engine.fill.toNat < 128
  · rw [writePay_of_lt hlt, writePay_of_lt (h.fill ▸ hlt)]
    exact { h with
      fill := congrArg (· + 1#8) h.fill, fvalid := rfl, rdptr := rfl, resp := rfl
      pay := readPay_pushed_congr h.fill h.pay hlt b
      frame := fun hv => by cases hv }
  · have hfull : ∀ e, writePay e s.engine.fill.toNat b = .error .payOutside := fun _ => if_neg hlt
    rw [← h.fill, hfull, hfull]
    rfl

/-- R135: the chunk lies below `FILL`, and the frame built from it is the same. -/
theorem indistinct_execFrmBuild (h : Indistinct s t) : IndistinctOutcome (execFrmBuild s) (execFrmBuild t) := by
  refine indistinct_unlessFaulted h (indistinct_ite (by rw [h.fill])
    (fun _ => indistinct_raiseFault h _ _) fun _ => ?_)
  exact indistinct_andThen (readChunk_congr h.fill h.pay) fun l =>
    { h with
      crc := rfl, fvalid := rfl, rdptr := rfl, resp := rfl
      frame := fun _ => readFrame_congr (by simp [h.blk]) }

/-- R137: a frame byte is read only while `FVALID = 1`. -/
theorem indistinct_execFrmRd (h : Indistinct s t) : IndistinctOutcome (execFrmRd s) (execFrmRd t) := by
  refine indistinct_unlessFaulted h (indistinct_ite (by rw [h.fvalid])
    (fun _ => indistinct_raiseFault h _ _) fun hv => ?_)
  refine indistinct_ite (by rw [h.rdptr]) (fun _ => indistinct_raiseFault h _ _) fun _ => ?_
  rw [← h.rdptr]
  exact indistinct_andThen (h.frame (by simpa using hv) _) fun _ => { h with rdptr := rfl, resp := rfl }

/-- R139: a frame byte is read only while `FVALID = 1`. -/
theorem indistinct_execFrmPeek (h : Indistinct s t) (x : Byte) :
    IndistinctOutcome (execFrmPeek x s) (execFrmPeek x t) := by
  refine indistinct_unlessFaulted h (indistinct_ite (by rw [h.fvalid])
    (fun _ => indistinct_raiseFault h _ _) fun hv => ?_)
  exact indistinct_ite Iff.rfl (fun _ => indistinct_raiseFault h _ _) fun _ =>
    indistinct_andThen (h.frame (by simpa using hv) _) fun _ => indistinct_completeWith h rfl

/-- R31, R32: no command can tell the two states apart. -/
theorem indistinct_exec (h : Indistinct s t) (i : Instr) : IndistinctOutcome (exec i s) (exec i t) := by
  cases i with
  | nop => exact indistinct_complete h
  | statRd => exact indistinct_completeWith h (by simp [statusWord, h.fault, h.fvalid, h.fill])
  | fltRd => exact indistinct_completeWith h h.fcmd
  | crcClr => exact indistinct_unlessFaulted h { h with crc := rfl, resp := rfl }
  | crcByte b =>
    exact indistinct_unlessFaulted h { h with crc := congrArg (crcByte · b) h.crc, resp := rfl }
  | crcRd => exact indistinct_unlessFaulted h (indistinct_completeWith h h.crc)
  | blkSet =>
    exact indistinct_unlessFaulted h <|
      indistinct_invalidateFrame (s := { s with engine := _ }) (t := { t with engine := _ }) { h with blk := rfl }
  | blkInc =>
    exact indistinct_unlessFaulted h <|
      indistinct_invalidateFrame (s := { s with engine := _ }) (t := { t with engine := _ })
        { h with blk := congrArg (· + 1#8) h.blk }
  | blkRd => exact indistinct_unlessFaulted h (indistinct_completeWith h (congrArg zext16 h.blk))
  | payClr =>
    exact indistinct_unlessFaulted h <|
      indistinct_invalidateFrame (s := { s with engine := _ }) (t := { t with engine := _ })
        { h with fill := rfl, pay := fun _ hi => absurd hi (Nat.not_lt_zero _) }
  | payPush b => exact indistinct_execPayPush h b
  | frmBuild => exact indistinct_execFrmBuild h
  | frmRd => exact indistinct_execFrmRd h
  | frmRewind => exact indistinct_unlessFaulted h { h with rdptr := rfl, resp := rfl }
  | frmPeek x => exact indistinct_execFrmPeek h x
  | frmPos => exact indistinct_unlessFaulted h (indistinct_completeWith h (congrArg zext16 h.rdptr))

/-- R202: a step on an illegal word takes the word from the port. -/
theorem step_eq_takeIllegal {w : Word} {rest : List PortEvent} {r : IllegalWord} (hin : s.inbox = .cmd w :: rest)
    (hdec : decode w = .error r) : step s = takeIllegal w { s with inbox := rest } := by
  simp [step, fetch, hin, hdec, withInbox]

end

/-- Settles O59: both states take the same event; each command answers alike by its own lemma. -/
theorem unwrittenBytesNeverShow : Obligations.UnwrittenBytesNeverShow := by
  intro s t h
  match hs : s.inbox with
  | [] =>
    rw [step_of_idle hs, step_of_idle (h.inbox ▸ hs)]
    exact h
  | .rst :: rest =>
    rw [step_of_reset hs, step_of_reset (h.inbox ▸ hs)]
    exact ⟨rfl, rfl, rfl, rfl, rfl, rfl, rfl, rfl, rfl, fun _ _ => rfl, fun _ _ => rfl⟩
  | .cmd w :: rest =>
    have htaken : Indistinct { s with inbox := rest } { t with inbox := rest } := { h with inbox := rfl }
    cases hdec : decode w with
    | ok i =>
      rw [step_of_legal hs hdec, step_of_legal (h.inbox ▸ hs) hdec]
      exact indistinct_exec htaken i
    | error r =>
      rw [step_eq_takeIllegal hs hdec, step_eq_takeIllegal (h.inbox ▸ hs) hdec]
      exact indistinct_unlessFaulted htaken (indistinct_raiseFault htaken _ _)

end Sys2Proof.Machine
end

section
/-! One step and the commands that answer from every state (20_memory R60, 43_status, 60_exceptions R201, 70 R230). -/

namespace Sys2Proof.Machine

/-- Settles O7: the word decodes to one command, which the step executes with the event taken. -/
theorem stepRunsDecodedCommand : Obligations.StepRunsDecodedCommand :=
  fun _ _ _ _ hin hdec _ => step_of_legal hin hdec

/-- Settles O8: a step on a reset leaves the engine of R35, whose fields are the values stated. -/
theorem resetLeavesResetValues : Obligations.ResetLeavesResetValues := by
  refine ⟨fun s rest hin => ⟨_, step_of_reset hin, rfl, ?_⟩, ?_⟩
  · exact ⟨rfl, rfl, rfl, rfl, rfl, rfl, rfl, rfl, rfl⟩
  · exact ⟨rfl, rfl, rfl, rfl, rfl, rfl, rfl, rfl, rfl⟩

/-- Settles O9: with nothing at the ports the step is idle. -/
theorem idleKeepsState : Obligations.IdleKeepsState := fun _ hin => step_of_idle hin

/-- R162: what `FLT.RD` does, Faulted or not. -/
theorem exec_fltRd (s : State) : exec .fltRd s = .next (answering s s.engine.fcmd) := rfl

/-- Settles O19: the word by its row, the illegal words by the format; `FLT.RD` makes no Faulted test. -/
theorem fltRdRespondsFcmd : Obligations.FltRdRespondsFcmd :=
  ⟨rfl, operandIsIllegal_of_formatZ (m := .fltRd) rfl, exec_fltRd⟩

/-- R75, R106: the word of `CRC.BYTE` is its opcode with the operand in the low byte. -/
theorem encode_crcByte (b : Byte) : encode (.crcByte b) = 0x1100#16 + b.setWidth 16 :=
  congrArg (0x1100#16 + ·) (BitVec.ofNat_toNat 16 b)

/-- R106: what `CRC.BYTE` does when it is not Faulted. -/
theorem exec_crcByte_of_running {s : State} (hf : s.engine.fault = .none) (b : Byte) :
    exec (.crcByte b) s = .next (after s { s.engine with crc := crcByte s.engine.crc b } none) :=
  unlessFaulted_of_running hf _

/-- Settles O21: the word by its opcode and operand, the effect by the Faulted test. -/
theorem crcByteFoldsByte : Obligations.CrcByteFoldsByte :=
  fun b => ⟨encode_crcByte b, fun _ hf => unlessFaulted_of_faulted hf _, fun _ hf => exec_crcByte_of_running hf b⟩

/-- R140: what `FRM.POS` does when it is not Faulted. -/
theorem exec_frmPos_of_running {s : State} (hf : s.engine.fault = .none) :
    exec .frmPos s = .next (answering s (s.engine.rdptr.setWidth 16)) :=
  unlessFaulted_of_running hf _

/-- Settles O42: the word by its row, the illegal words by the format, the response by the Faulted test. -/
theorem frmPosRespondsPointer : Obligations.FrmPosRespondsPointer :=
  ⟨rfl, operandIsIllegal_of_formatZ (m := .frmPos) rfl, fun _ hf => unlessFaulted_of_faulted hf _,
    fun _ hf => exec_frmPos_of_running hf⟩

/-! ### Which commands can raise a fault, and which respond -/

/-- The commands with a fault of their own (60_exceptions R201). -/
def faultingMnemonics : List Mnemonic := [.payPush, .frmBuild, .frmRd, .frmPeek]

/-- R201: only four commands raise a fault. -/
theorem mnemonic_of_raises {i : Instr} {e : Engine} {c : FaultCode} (h : Raises i e c) :
    i.line.mnemonic ∈ faultingMnemonics := by
  cases c with
  | none | illegalCmd => exact h.elim
  | payOverflow =>
    obtain ⟨b, rfl, _⟩ := h
    simp [Instr.line, faultingMnemonics]
  | emptyBuild | frameUnderrun =>
    obtain ⟨rfl, _⟩ := h
    decide
  | frameInvalid =>
    obtain ⟨rfl | ⟨x, rfl⟩, _⟩ := h <;> simp [Instr.line, faultingMnemonics]
  | indexRange =>
    obtain ⟨x, rfl, _⟩ := h
    simp [Instr.line, faultingMnemonics]

/-- R207: a command that raises no fault of its own does nothing while Faulted, or has the effect of its rule. -/
theorem exec_cases_of_faultless {i : Instr} {s t : State} (hi : i.line.mnemonic ∉ faultingMnemonics)
    (h : exec i s = .next t) : (s.engine.fault ≠ .none ∧ t = silent s) ∨ Effect i s t := by
  rcases exec_cases h with hfrozen | ⟨_, heffect⟩ | ⟨_, c, hraises, _⟩
  · exact .inl hfrozen
  · exact .inr heffect
  · exact absurd (mnemonic_of_raises hraises) hi

/-- R207: a command whose own rule answers a next state does so while Faulted too. -/
theorem unlessFaulted_answers {s : State} {k : Host.Outcome State Fault Refusal}
    (hk : s.engine.fault = .none → ∃ t, k = .next t) : ∃ t, unlessFaulted s k = .next t := by
  by_cases hf : s.engine.fault = .none
  · rw [unlessFaulted_of_running hf]
    exact hk hf
  · exact ⟨_, unlessFaulted_of_faulted hf k⟩

/-- R201: a command that raises no fault of its own makes no access that can stop. -/
theorem exec_answers_of_faultless {i : Instr} (hi : i.line.mnemonic ∉ faultingMnemonics) (s : State) :
    ∃ t, exec i s = .next t := by
  cases i with
  | nop | statRd | fltRd => exact ⟨_, rfl⟩
  | payPush | frmBuild | frmRd | frmPeek => simp [Instr.line, faultingMnemonics] at hi
  | _ => exact unlessFaulted_answers fun _ => ⟨_, rfl⟩

/-- Settles O16: the twelve commands are those without a fault of their own; none of their rules writes the record. -/
theorem twelveCommandsNeverFault : Obligations.TwelveCommandsNeverFault := by
  intro i s hi
  have hfaultless : i.line.mnemonic ∉ faultingMnemonics := by
    revert hi
    generalize i.line.mnemonic = m
    cases m <;> decide
  obtain ⟨t, ht⟩ := exec_answers_of_faultless hfaultless s
  rcases exec_cases_of_faultless hfaultless ht with ⟨_, rfl⟩ | heffect
  · exact ⟨_, ht, rfl, rfl⟩
  · exact ⟨t, ht, effect_keeps_fault heffect⟩

/-- R72, R75: the effect of a command's own rule responds as the column "responds" says. -/
theorem effect_responds_iff {i : Instr} {s t : State} (h : Effect i s t) :
    t.resp ≠ none ↔ i.line.mnemonic.responds = true := by
  cases i with
  | payPush =>
    obtain ⟨_, rfl⟩ := h
    simp [Instr.line, Mnemonic.responds]
  | frmBuild =>
    obtain ⟨_, _, _, rfl⟩ := h
    simp [Instr.line, Mnemonic.responds]
  | frmRd | frmPeek =>
    obtain ⟨_, _, _, _, rfl⟩ := h
    simp [Instr.line, Mnemonic.responds]
  | _ =>
    obtain rfl := h
    simp [Instr.line, Mnemonic.responds]

/-- Settles O14: two commands respond in every state; the others respond by their effect, and neither while Faulted
nor where they raise a fault. -/
theorem responsesComeFromRespondingCommands : Obligations.ResponsesComeFromRespondingCommands := by
  intro i s t h
  by_cases hstat : i = .statRd
  · subst hstat
    cases (exec_statRd s).symm.trans h
    simp
  by_cases hflt : i = .fltRd
  · subst hflt
    cases (exec_fltRd s).symm.trans h
    simp
  simp only [hstat, hflt, false_or]
  rcases exec_cases h with ⟨hf, rfl⟩ | ⟨hf, heffect⟩ | ⟨_, c, hraises, rfl⟩
  · simp [hf]
  · rw [effect_responds_iff heffect, (effect_keeps_fault heffect).1, iff_self_and]
    intro hresponds
    rcases hf with hf | rfl | hi | hi
    · exact hf
    · cases hresponds
    · exact absurd hi hstat
    · exact absurd hi hflt
  · simp [raises_ne_none hraises]

end Sys2Proof.Machine
end

section
/-! What the invariant gives (10_state R34): no step stops, a valid frame is self-consistent, a rebuild gives the same
frame; and the record of a fault (60_exceptions R201). -/

namespace Sys2Proof.Machine

/-! ### From a state that meets the invariant every command answers -/

/-- R134: a push answers while `FILL` is at most 128. -/
theorem exec_payPush_answers {s : State} (hf : s.engine.fault = .none) (hfill : s.engine.fill.toNat ≤ 128)
    (b : Byte) : ∃ t, exec (.payPush b) s = .next t := by
  rcases hfill.lt_or_eq with hlt | hfull
  · exact ⟨_, exec_payPush_of_lt hf hlt b⟩
  · exact ⟨_, exec_payPush_of_full hf (BitVec.eq_of_toNat_eq hfull) b⟩

/-- R135: a build answers when the chunk can be read. -/
theorem exec_frmBuild_answers {s : State} (hf : s.engine.fault = .none) (hchunk : ∃ l, readChunk s.engine = .ok l) :
    ∃ t, exec .frmBuild s = .next t := by
  obtain ⟨l, hl⟩ := hchunk
  by_cases hfill : s.engine.fill = 0#8
  · exact ⟨_, exec_frmBuild_of_empty hf hfill⟩
  · exact ⟨_, exec_frmBuild_of_chunk hf hfill hl⟩

/-- INV4: every byte of a valid frame can be read. -/
theorem readFrame_of_inv {e : Engine} (h : e.Inv) (hv : e.fvalid = true) {i : Nat} (hi : i < 133) :
    ∃ b, readFrame e i = .ok b := by
  obtain ⟨_, l, _, hbytes⟩ := h.frame_current hv
  exact ⟨_, hbytes i hi⟩

/-- R137: a read answers under the invariant: `RDPTR` is at the end of a valid frame or at one of its bytes. -/
theorem exec_frmRd_answers {s : State} (hf : s.engine.fault = .none) (hinv : s.engine.Inv) :
    ∃ t, exec .frmRd s = .next t := by
  cases hv : s.engine.fvalid with
  | false => exact ⟨_, exec_frmRd_of_invalid hf hv⟩
  | true =>
    rcases hinv.rdptr_le.lt_or_eq with hlt | hend
    · obtain ⟨b, hb⟩ := readFrame_of_inv hinv hv hlt
      exact ⟨_, exec_frmRd_of_byte hf hv hb⟩
    · exact ⟨_, exec_frmRd_of_end hf hv (BitVec.eq_of_toNat_eq hend)⟩

/-- R139: a peek answers under the invariant: the index is outside a valid frame or that of one of its bytes. -/
theorem exec_frmPeek_answers {s : State} (hf : s.engine.fault = .none) (hinv : s.engine.Inv) (x : Byte) :
    ∃ t, exec (.frmPeek x) s = .next t := by
  cases hv : s.engine.fvalid with
  | false => exact ⟨_, exec_frmPeek_of_invalid hf hv x⟩
  | true =>
    rcases Nat.lt_or_ge x.toNat 133 with hlt | hge
    · obtain ⟨b, hb⟩ := readFrame_of_inv hinv hv hlt
      exact ⟨_, exec_frmPeek_of_byte hf hv hb⟩
    · exact ⟨_, exec_frmPeek_of_outside hf hv hge⟩

/-- R34: from a state that meets the invariant every command answers a next state. -/
theorem exec_answers_of_inv {s : State} (hinv : s.engine.Inv) (i : Instr) : ∃ t, exec i s = .next t := by
  by_cases hi : i.line.mnemonic ∈ faultingMnemonics
  · by_cases hf : s.engine.fault = .none
    · cases i with
      | payPush b => exact exec_payPush_answers hf hinv.fill_le b
      | frmBuild => exact exec_frmBuild_answers hf hinv.chunk_written
      | frmRd => exact exec_frmRd_answers hf hinv
      | frmPeek x => exact exec_frmPeek_answers hf hinv x
      | _ => simp [Instr.line, faultingMnemonics] at hi
    · refine ⟨_, exec_of_faulted hf ?_ ?_⟩ <;> rintro rfl <;> simp [Instr.line, faultingMnemonics] at hi
  · exact exec_answers_of_faultless hi s

/-- Settles O56: an idle step, a reset and an illegal word always answer, a command by the invariant. -/
theorem stepNeverStops : Obligations.StepNeverStops := by
  intro s hinv
  match hin : s.inbox with
  | [] => exact ⟨_, step_of_idle hin⟩
  | .rst :: rest => exact ⟨_, step_of_reset hin⟩
  | .cmd w :: rest =>
    cases hdec : decode w with
    | ok i =>
      rw [step_of_legal hin hdec]
      exact exec_answers_of_inv (s := { s with inbox := rest }) hinv i
    | error r =>
      rw [step_eq_takeIllegal hin hdec]
      exact unlessFaulted_answers fun _ => ⟨_, rfl⟩

/-! ### The frame of a state that meets the invariant -/

/-- R131: the payload of a frame is what stands between the header and the CRC. -/
theorem frameOf_payload (b : Byte) {l : List Byte} (hl : l.length ≤ 128) : ((frameOf b l).drop 3).take 128 = pad l :=
  List.take_left' (pad_length l hl)

/-- Settles O58: by INV4 the frame is that of `BLK` and the chunk, whose parts are known. -/
theorem validFrameIsSelfConsistent : Obligations.ValidFrameIsSelfConsistent := by
  intro e hinv hv
  obtain ⟨_, l, hl, hbytes⟩ := hinv.frame_current hv
  have hlen := readChunk_length hl
  refine ⟨frameOf e.blk l, frameOf_length e.blk hlen, hbytes, rfl, rfl, rfl, ?_⟩
  rw [frameOf_payload e.blk hlen, concatBytes_frameOf_crc e.blk hlen]

/-- Settles O45: by INV4 the bytes the build writes are those `FRAME` holds; from index 133 on there is none. -/
theorem rebuildGivesSameFrame : Obligations.RebuildGivesSameFrame := by
  intro s hinv hf hv
  obtain ⟨hpos, l, hl, hbytes⟩ := Engine.Inv.frame_current hinv hv
  have hfill : s.engine.fill ≠ 0#8 := fun hz => by simp [hz] at hpos
  refine ⟨_, exec_frmBuild_of_chunk hf hfill hl, fun a => ?_, rfl, rfl, rfl⟩
  rw [after_engine]
  rcases Nat.lt_or_ge a 133 with ha | ha
  · rw [readFrame_built s.engine (readChunk_length hl) ha, hbytes a ha]
  · rw [readFrame_outside _ ha, readFrame_outside _ ha]

/-! ### The record of a fault -/

/-- R28: the record's agreement depends on `FAULT` and `FCMD` alone. -/
theorem faultRecorded_congr {e f : Engine} (hfault : f.fault = e.fault) (hfcmd : f.fcmd = e.fcmd)
    (h : FaultRecorded e) : FaultRecorded f := by
  unfold FaultRecorded at h ⊢
  rw [hfault, hfcmd]
  exact h

/-- R201: a command that raises a cause has a word that can raise it. -/
theorem faultRecorded_of_raises {i : Instr} {e : Engine} {c : FaultCode} (h : Raises i e c) :
    FaultRecorded { e with fault := c, fcmd := encode i } := by
  cases c with
  | none | illegalCmd => exact h.elim
  | payOverflow =>
    obtain ⟨b, rfl, _⟩ := h
    exact ⟨b, rfl⟩
  | emptyBuild | frameUnderrun =>
    obtain ⟨rfl, _⟩ := h
    rfl
  | frameInvalid =>
    obtain ⟨rfl | ⟨x, rfl⟩, _⟩ := h
    · exact .inl rfl
    · exact .inr ⟨x, rfl⟩
  | indexRange =>
    obtain ⟨x, rfl, _, hx⟩ := h
    exact ⟨x, hx, rfl⟩

/-- Settles O57: of all that a step can do, only a reset, a raised fault and an illegal word write the record. -/
theorem faultRecordAgrees : Obligations.FaultRecordAgrees := by
  intro s t hrecord hstep
  rcases step_cases hstep with
    ⟨_, rfl⟩ | ⟨_, _, rfl⟩ | ⟨_, rest, _, _, _, hexec⟩ | ⟨w, _, _, _, hdec, hillegal⟩
  · exact hrecord
  · rfl
  · rcases exec_cases hexec with ⟨_, rfl⟩ | ⟨_, heffect⟩ | ⟨_, c, hraises, rfl⟩
    · exact hrecord
    · obtain ⟨hfault, hfcmd⟩ := effect_keeps_fault (s := { s with inbox := rest }) heffect
      exact faultRecorded_congr hfault hfcmd hrecord
    · exact faultRecorded_of_raises hraises
  · rcases takeIllegal_cases hillegal with ⟨_, rfl⟩ | ⟨_, rfl⟩
    · exact hrecord
    · intro i hok
      cases hdec.symm.trans hok

end Sys2Proof.Machine
end

section
/-! The CRC functions (40_crc R101 to R104) and their laws (R110). -/

namespace Sys2Proof.Machine

/-! ### The bit step -/

/-- R101: the bit that the shift pushes out decides by the number. -/
theorem getLsbD_fifteen (c : Word) : c.getLsbD 15 = decide (2 ^ 15 ≤ c.toNat) := BitVec.msb_eq_decide c

/-- R101: the bit step by numbers. -/
theorem crcShift_toNat (c : Word) : (crcShift c).toNat =
    if 2 ^ 15 ≤ c.toNat then (c.toNat * 2 % 2 ^ 16) ^^^ 0x1021 else c.toNat * 2 % 2 ^ 16 := by
  simp only [crcShift, getLsbD_fifteen, decide_eq_true_eq]
  split
  · rw [BitVec.toNat_xor, BitVec.toNat_shiftLeft, Nat.shiftLeft_eq]
    rfl
  · rw [BitVec.toNat_shiftLeft, Nat.shiftLeft_eq]

/-- R101: below bit 15 the bit step is a shift. -/
theorem crcShift_of_lt {c : Word} (hc : c.toNat < 2 ^ 15) : crcShift c = c <<< 1 := by
  rw [crcShift, getLsbD_fifteen, decide_eq_false (Nat.not_le_of_lt hc)]
  rfl

/-- The generator where the bit is 1 (R101). -/
def polyIf (d : Bool) : Word := if d then Config.poly else 0x0000#16

/-- R101: bits that differ add the generator once. -/
theorem polyIf_xor (d d' : Bool) : polyIf (d ^^ d') = polyIf d ^^^ polyIf d' := by
  cases d <;> cases d' <;> rfl

/-- R104: the bit-serial step shifts, and xors the generator in when the bit shifted out differs from the bit fed. -/
theorem crcBit_eq (c : Word) (d : Bool) : crcBit c d = c <<< 1 ^^^ polyIf (c.getLsbD 15 ^^ d) := by
  unfold crcBit polyIf
  split
  · rfl
  · exact BitVec.xor_zero.symm

/-- R101: the bit step shifts, and xors the generator in when the bit shifted out is 1. -/
theorem crcShift_eq (c : Word) : crcShift c = c <<< 1 ^^^ polyIf (c.getLsbD 15) := by
  rw [← Bool.xor_false (c.getLsbD 15), ← crcBit_eq, crcBit, Bool.xor_false]
  rfl

/-- R110 (a) for one bit. -/
theorem crcShift_xor (x y : Word) : crcShift (x ^^^ y) = crcShift x ^^^ crcShift y := by
  simp only [crcShift_eq, BitVec.shiftLeft_xor_distrib, BitVec.getLsbD_xor, polyIf_xor]
  ac_rfl

/-- R101: bit 0 after a bit step is the bit shifted out, since the generator has bit 0. -/
theorem crcShift_getLsbD_zero (c : Word) : (crcShift c).getLsbD 0 = c.getLsbD 15 := by
  rw [crcShift_eq]
  cases c.getLsbD 15 <;> simp [polyIf, Config.poly]

/-- R110 (f) for one bit: the bit shifted out stands in bit 0, the other bits in the shift. -/
theorem crcShift_injective : Function.Injective crcShift := by
  intro x y h
  have htop : x.getLsbD 15 = y.getLsbD 15 := by rw [← crcShift_getLsbD_zero, h, crcShift_getLsbD_zero]
  rw [crcShift_eq, crcShift_eq, htop, BitVec.xor_left_inj] at h
  refine BitVec.eq_of_getLsbD_eq fun i hi => ?_
  by_cases hlast : i = 15
  · rw [hlast, htop]
  · have hbit := congrArg (BitVec.getLsbD · (i + 1)) h
    simpa [show i + 1 < 16 by omega, hi] using hbit

/-! ### The byte step -/

/-- R102: the eight bit steps are one function, iterated. -/
theorem crcShifts_eq_iterate (n : Nat) (c : Word) : crcShifts n c = crcShift^[n] c := by
  induction n generalizing c with
  | zero => rfl
  | succ n ih => rw [crcShifts_succ, ih, Function.iterate_succ_apply]

/-- R110 (a) for a number of bit steps. -/
theorem crcShifts_xor (n : Nat) (x y : Word) : crcShifts n (x ^^^ y) = crcShifts n x ^^^ crcShifts n y := by
  induction n generalizing x y with
  | zero => rfl
  | succ n ih => rw [crcShifts_succ, crcShift_xor, ih, ← crcShifts_succ, ← crcShifts_succ]

/-- R102: while no 1 is shifted out, `n` bit steps are a shift by `n`. -/
theorem crcShifts_of_lt {n : Nat} {c : Word} (hc : c.toNat * 2 ^ n < 2 ^ 16) : crcShifts n c = c <<< n := by
  induction n generalizing c with
  | zero => simp
  | succ n ih =>
    rw [Nat.pow_succ', ← Nat.mul_assoc] at hc
    have hdouble : c.toNat * 2 < 2 ^ 16 := lt_of_le_of_lt (Nat.le_mul_of_pos_right _ (Nat.two_pow_pos n)) hc
    have hshift : (c <<< 1).toNat = c.toNat * 2 := by
      rw [BitVec.toNat_shiftLeft, Nat.shiftLeft_eq, Nat.pow_one, Nat.mod_eq_of_lt hdouble]
    rw [crcShifts_succ, crcShift_of_lt (by omega), ih (by rwa [hshift]), ← BitVec.shiftLeft_add, Nat.add_comm]

/-- R102: the byte is folded into bits 15:8 of the register. -/
theorem zext16_xor_shiftLeft (a b : Byte) : zext16 (a ^^^ b) <<< 8 = zext16 a <<< 8 ^^^ zext16 b <<< 8 := by
  rw [zext16, BitVec.setWidth_xor, BitVec.shiftLeft_xor_distrib]
  rfl

/-- R53: a byte in bits 15:8, by numbers. -/
theorem toNat_zext16_shiftLeft (b : Byte) : (zext16 b <<< 8).toNat = b.toNat * 256 := by
  simp [zext16, Nat.shiftLeft_eq]
  omega

/-- R110 (a) for one byte. -/
theorem crcByte_xor (c c' : Word) (b b' : Byte) :
    crcByte (c ^^^ c') (b ^^^ b') = crcByte c b ^^^ crcByte c' b' := by
  rw [crcByte, crcByte, crcByte, zext16_xor_shiftLeft, ← crcShifts_xor]
  congr 1
  ac_rfl

/-- R110 (b): a zero byte leaves a cleared register cleared. -/
@[simp] theorem crcByte_zero_zero : crcByte 0x0000#16 0x00#8 = 0x0000#16 := by decide

/-- R53: a value is its high byte in bits 15:8 and its low byte in bits 7:0. -/
theorem eq_highByte_xor_lowByte (c : Word) : c = zext16 (highByte c) <<< 8 ^^^ zext16 (lowByte c) := by
  refine BitVec.eq_of_getLsbD_eq fun i hi => ?_
  by_cases hlow : i < 8
  · simp [zext16, highByte, lowByte, hi, hlow]
  · have hindex : 8 + (i - 8) = i := by omega
    simp [zext16, highByte, lowByte, hi, hlow, hindex, show i - 8 < 8 by omega]

/-- R53: shifted by a byte, a value keeps its low byte. -/
theorem zext16_lowByte_shiftLeft (c : Word) : zext16 (lowByte c) <<< 8 = c <<< 8 := by
  apply BitVec.eq_of_toNat_eq
  rw [toNat_zext16_shiftLeft, BitVec.toNat_shiftLeft, Nat.shiftLeft_eq]
  simp [lowByte]
  omega

/-- R110 (d): the high byte and the byte fed pass through the table, the low byte is shifted up. -/
theorem crcByte_eq_table (c : Word) (b : Byte) :
    crcByte c b = crcByte 0x0000#16 (highByte c ^^^ b) ^^^ (c <<< 8) := by
  have hlow : (zext16 (lowByte c)).toNat * 2 ^ 8 < 2 ^ 16 := by
    have := (lowByte c).isLt
    simp [zext16]
    omega
  calc crcByte c b
    _ = crcShifts 8 ((0x0000#16 ^^^ zext16 (highByte c ^^^ b) <<< 8) ^^^ zext16 (lowByte c)) := by
      rw [crcByte]
      conv_lhs => rw [eq_highByte_xor_lowByte c]
      rw [zext16_xor_shiftLeft, BitVec.zero_xor]
      congr 1
      ac_rfl
    _ = crcByte 0x0000#16 (highByte c ^^^ b) ^^^ zext16 (lowByte c) <<< 8 := by
      rw [crcShifts_xor, crcShifts_of_lt hlow]
      rfl
    _ = crcByte 0x0000#16 (highByte c ^^^ b) ^^^ (c <<< 8) := by rw [zext16_lowByte_shiftLeft]

/-- R104: one bit step of a register with a byte folded in is one serial step on the byte's bit 7; the byte's other
bits move up. -/
theorem crcShift_xor_high (c : Word) (b : Byte) :
    crcShift (c ^^^ zext16 b <<< 8) = crcBit c (b.getLsbD 7) ^^^ zext16 (b <<< 1) <<< 8 := by
  have hbits : (zext16 b <<< 8) <<< 1 = zext16 (b <<< 1) <<< 8 := by
    apply BitVec.eq_of_toNat_eq
    rw [BitVec.toNat_shiftLeft, toNat_zext16_shiftLeft, toNat_zext16_shiftLeft, BitVec.toNat_shiftLeft,
      Nat.shiftLeft_eq, Nat.shiftLeft_eq]
    omega
  have htop : (zext16 b <<< 8).getLsbD 15 = b.getLsbD 7 := by simp [zext16]
  rw [crcShift_eq, crcBit_eq, BitVec.shiftLeft_xor_distrib, BitVec.getLsbD_xor, hbits, htop, BitVec.xor_assoc,
    BitVec.xor_comm (zext16 _ <<< 8), ← BitVec.xor_assoc]

/-- R104: eight serial steps, bit 7 first, are the byte step. -/
theorem crcSerial_eq (c : Word) (b : Byte) : crcSerial c b = crcByte c b := by
  simp only [crcByte, crcShifts_succ, crcShifts_zero, crcShift_xor_high, crcSerial, List.foldl_cons, List.foldl_nil]
  simp [zext16]

/-! ### Lists of bytes -/

/-- R103: the CRC of a list is a fold of the byte step. -/
theorem crcFold_eq_foldl (c : Word) (l : List Byte) : crcFold c l = l.foldl crcByte c := by
  induction l generalizing c with
  | nil => rfl
  | cons b l ih => rw [crcFold_cons, ih, List.foldl_cons]

/-- R110 (c): a list continues from the register its first part left. -/
theorem crcFold_append (c : Word) (k l : List Byte) : crcFold c (k ++ l) = crcFold (crcFold c k) l := by
  simp only [crcFold_eq_foldl, List.foldl_append]

/-- R110 (b): zero bytes leave a cleared register cleared. -/
theorem crc16_replicate_zero (k : Nat) : crc16 (List.replicate k 0x00#8) = 0x0000#16 := by
  induction k with
  | zero => rfl
  | succ k ih =>
    rw [List.replicate_succ, crc16, crcFold_cons]
    exact ih

/-- R110 (a) for lists of one length, from any two registers. -/
theorem crcFold_zipWith_xor (c c' : Word) {k l : List Byte} (hlen : k.length = l.length) :
    crcFold (c ^^^ c') (List.zipWith (· ^^^ ·) k l) = crcFold c k ^^^ crcFold c' l := by
  induction k generalizing c c' l with
  | nil =>
    obtain rfl := List.length_eq_zero_iff.1 hlen.symm
    rfl
  | cons b k ih =>
    cases l with
    | nil => cases hlen
    | cons b' l =>
      simp only [List.zipWith_cons_cons, crcFold_cons, crcByte_xor]
      exact ih _ _ (Nat.succ.inj hlen)

/-- R110 (e): folding in the register's own bytes, high byte first, clears it. -/
theorem crcFold_own_bytes (c : Word) : crcFold c [highByte c, lowByte c] = 0x0000#16 := by
  have hhigh : crcByte c (highByte c) = c <<< 8 := by
    rw [crcByte_eq_table, BitVec.xor_self, crcByte_zero_zero, BitVec.zero_xor]
  have hmoved : highByte (c <<< 8) = lowByte c := by
    apply BitVec.eq_of_toNat_eq
    simp [highByte, lowByte, Nat.shiftRight_eq_div_pow, Nat.shiftLeft_eq]
    omega
  have hgone : (c <<< 8) <<< 8 = 0x0000#16 := by
    rw [← BitVec.shiftLeft_add]
    exact BitVec.shiftLeft_eq_zero (by decide)
  rw [crcFold_cons, crcFold_cons, crcFold_nil, hhigh, crcByte_eq_table, hmoved, BitVec.xor_self, crcByte_zero_zero,
    hgone]
  rfl

/-- R110 (f): eight bit steps are one to one. -/
theorem crcShifts_injective (n : Nat) : Function.Injective (crcShifts n) := by
  rw [funext (crcShifts_eq_iterate n)]
  exact crcShift_injective.iterate n

/-! ### The statements -/

/-- Settles O23: the bit step by numbers, the byte step as an iteration, the list as a fold. -/
theorem crcFunctionsAreTheBitAtATimeAlgorithm : Obligations.CrcFunctionsAreTheBitAtATimeAlgorithm :=
  ⟨crcShift_toNat, fun _ _ => crcShifts_eq_iterate 8 _, crcFold_eq_foldl _⟩

/-- Settles O24: each bit step is a serial step on the byte's next bit. -/
theorem crcSerialFormAgrees : Obligations.CrcSerialFormAgrees := crcSerial_eq

/-- Settles O25: the bit step is linear, hence the byte step and the fold. -/
theorem crcIsLinear : Obligations.CrcIsLinear :=
  ⟨crcShift_xor, crcByte_xor, fun _ _ hlen => crcFold_zipWith_xor Config.crcInit Config.crcInit hlen⟩

/-- Settles O26: a fold of an append; zero bytes keep the cleared register. -/
theorem crcLeadingZerosAndContinuation : Obligations.CrcLeadingZerosAndContinuation := by
  refine ⟨fun k l => ?_, fun k l => crcFold_append _ k l, fun l b => ?_⟩
  · rw [crc16, crcFold_append]
    exact congrArg (crcFold · l) (crc16_replicate_zero k)
  · rw [crc16, crcFold_append, crcFold_cons, crcFold_nil, crc16]

/-- Settles O27: the byte step is linear, and shifts the low byte up. -/
theorem crcTableForm : Obligations.CrcTableForm := crcByte_eq_table

/-- Settles O28: the fold goes on with the register's own bytes. -/
theorem crcResidueIsZero : Obligations.CrcResidueIsZero :=
  fun l => (crcFold_append _ l _).trans (crcFold_own_bytes (crc16 l))

/-- Settles O29: the bit step is one to one, and xor with a fixed value is. -/
theorem crcByteIsBijective : Obligations.CrcByteIsBijective := by
  refine ⟨fun b => Finite.injective_iff_bijective.1 fun x y h => ?_, fun c x y h => ?_⟩
  · exact (BitVec.xor_left_inj _).1 (crcShifts_injective 8 h)
  · have hbytes : zext16 x <<< 8 = zext16 y <<< 8 := (BitVec.xor_right_inj _).1 (crcShifts_injective 8 h)
    have hnum := congrArg BitVec.toNat hbytes
    rw [toNat_zext16_shiftLeft, toNat_zext16_shiftLeft] at hnum
    exact BitVec.eq_of_toNat_eq (by omega)

end Sys2Proof.Machine
end

section
/-! What each command leaves unchanged (10_state section 12). -/

namespace Sys2Proof.Machine

/-- R50: buffers that were not written read as before. -/
theorem sameBuffers_of_eq {s t : State} (hpay : t.engine.pay = s.engine.pay)
    (hframe : t.engine.frame = s.engine.frame) : SameBuffers s t :=
  ⟨readPay_congr hpay, readFrame_congr hframe⟩

/-! ### The commands that raise no fault of their own -/

/-- Settles O48: while Faulted or not, each of the six at most responds. -/
theorem readsChangeNothing : Obligations.ReadsChangeNothing := by
  intro i s t hi h
  simp only [List.mem_cons, List.not_mem_nil, or_false] at hi
  have hfaultless : i.line.mnemonic ∉ faultingMnemonics := by
    rcases hi with rfl | rfl | rfl | rfl | rfl | rfl <;> decide
  rcases exec_cases_of_faultless hfaultless h with ⟨_, rfl⟩ | heffect
  · exact ⟨rfl, rfl, sameBuffers_of_eq rfl rfl⟩
  · rcases hi with rfl | rfl | rfl | rfl | rfl | rfl <;> obtain rfl := heffect <;>
      exact ⟨rfl, rfl, sameBuffers_of_eq rfl rfl⟩

/-- Settles O49: while Faulted nothing changes, else the rule of either command writes `CRC`. -/
theorem crcCommandsChangeCrcOnly : Obligations.CrcCommandsChangeCrcOnly := by
  intro i s t hi h
  rcases hi with rfl | ⟨b, rfl⟩ <;> rcases unlessFaulted_complete_cases h with ⟨_, rfl⟩ | ⟨_, rfl⟩ <;>
    exact ⟨rfl, rfl, sameBuffers_of_eq rfl rfl⟩

/-- Settles O50: while Faulted nothing changes, else the rule of either command writes `BLK` and invalidates the
frame. -/
theorem blkCommandsFrame : Obligations.BlkCommandsFrame := by
  intro i s t hi h
  rcases hi with rfl | ⟨b, rfl⟩ <;> rcases unlessFaulted_complete_cases h with ⟨_, rfl⟩ | ⟨_, rfl⟩ <;>
    exact ⟨rfl, rfl, sameBuffers_of_eq rfl rfl⟩

/-! ### The commands that load a chunk -/

/-- Settles O51: `PAY.CLR` writes no byte; `PAY.PUSH` does nothing, raises its fault, or pushes one byte. -/
theorem payCommandsFrame : Obligations.PayCommandsFrame := by
  refine ⟨fun s t h => ?_, fun b s t h => ?_⟩
  · rcases unlessFaulted_complete_cases h with ⟨_, rfl⟩ | ⟨_, rfl⟩ <;>
      exact ⟨rfl, rfl, sameBuffers_of_eq rfl rfl⟩
  · rcases execPayPush_cases h with ⟨_, rfl⟩ | ⟨hf, _, rfl⟩ | ⟨_, hlt, rfl⟩
    · exact ⟨rfl, rfl, rfl, rfl, fun _ _ => rfl, fun _ => rfl, fun _ => rfl, fun hne => absurd rfl hne⟩
    · exact ⟨rfl, rfl, rfl, rfl, fun _ _ => rfl, fun _ => rfl, fun hsame => by simp [hf] at hsame,
        fun _ => ⟨sameBuffers_of_eq rfl rfl, rfl, rfl, rfl⟩⟩
    · exact ⟨rfl, rfl, rfl, rfl, fun a ha => (readPay_pushed hlt b a).trans (if_neg ha), fun _ => rfl, fun _ => rfl,
        fun hne => absurd rfl hne⟩

/-! ### The commands that build a frame and read it out -/

/-- R135: what `FRM.BUILD` keeps, doing nothing, raising its fault, or building. -/
theorem execFrmBuild_frame {s t : State} (h : exec .frmBuild s = .next t) :
    t.engine.blk = s.engine.blk ∧ t.engine.fill = s.engine.fill ∧ t.inbox = s.inbox ∧
    (∀ a, readPay t.engine a = readPay s.engine a) ∧
    (∀ a, 133 ≤ a → readFrame t.engine a = readFrame s.engine a) ∧
    (t.engine.fault = s.engine.fault → t.engine.fcmd = s.engine.fcmd) ∧
    (t.engine.fault ≠ s.engine.fault → SameBuffers s t ∧ t.engine.crc = s.engine.crc ∧
      t.engine.fvalid = s.engine.fvalid ∧ t.engine.rdptr = s.engine.rdptr) := by
  have houtside : ∀ a, 133 ≤ a → readFrame t.engine a = readFrame s.engine a := fun _ ha =>
    (readFrame_outside _ ha).trans (readFrame_outside _ ha).symm
  rcases execFrmBuild_cases h with ⟨_, rfl⟩ | ⟨hf, _, rfl⟩ | ⟨_, _, l, _, rfl⟩
  · exact ⟨rfl, rfl, rfl, fun _ => rfl, houtside, fun _ => rfl, fun hne => absurd rfl hne⟩
  · exact ⟨rfl, rfl, rfl, fun _ => rfl, houtside, fun hsame => by simp [hf] at hsame,
      fun _ => ⟨sameBuffers_of_eq rfl rfl, rfl, rfl, rfl⟩⟩
  · exact ⟨rfl, rfl, rfl, fun _ => rfl, houtside, fun _ => rfl, fun hne => absurd rfl hne⟩

/-- Settles O52: each command does nothing, raises a fault, or has the effect of its rule. -/
theorem frmCommandsFrame : Obligations.FrmCommandsFrame := by
  refine ⟨fun _ _ h => execFrmBuild_frame h, fun s t h => ?_, fun s t h => ?_, fun x s t h => ?_⟩
  · rcases unlessFaulted_complete_cases h with ⟨_, rfl⟩ | ⟨_, rfl⟩ <;>
      exact ⟨rfl, rfl, sameBuffers_of_eq rfl rfl⟩
  · rcases execFrmRd_cases h with ⟨_, rfl⟩ | ⟨_, _, rfl⟩ | ⟨_, _, _, rfl⟩ | ⟨_, _, _, b, _, rfl⟩
    · exact ⟨rfl, sameBuffers_of_eq rfl rfl, .inl rfl⟩
    · exact ⟨rfl, sameBuffers_of_eq rfl rfl, .inr rfl⟩
    · exact ⟨rfl, sameBuffers_of_eq rfl rfl, .inr rfl⟩
    · exact ⟨rfl, sameBuffers_of_eq rfl rfl, .inl rfl⟩
  · rcases execFrmPeek_cases h with ⟨_, rfl⟩ | ⟨_, _, rfl⟩ | ⟨_, _, _, rfl⟩ | ⟨_, _, _, b, _, rfl⟩ <;>
      exact ⟨rfl, sameBuffers_of_eq rfl rfl, rfl⟩

/-! ### Who writes each item -/

/-- 10_state section 12: the effect of a command writes an item only where the table names the command. -/
theorem effect_writers {i : Instr} {s t : State} (h : Effect i s t) :
    (t.engine.crc ≠ s.engine.crc → i.line.mnemonic ∈ [.crcClr, .crcByte, .frmBuild]) ∧
    (t.engine.pay ≠ s.engine.pay → i.line.mnemonic = .payPush) ∧
    (t.engine.fill ≠ s.engine.fill → i.line.mnemonic ∈ [.payClr, .payPush]) ∧
    (t.engine.frame ≠ s.engine.frame → i = .frmBuild) ∧
    (t.engine.fvalid = true → s.engine.fvalid = false → i = .frmBuild) ∧
    (t.engine.fvalid = false → s.engine.fvalid = true →
      i.line.mnemonic ∈ [.blkSet, .blkInc, .payClr, .payPush]) ∧
    (t.engine.rdptr ≠ s.engine.rdptr → i.line.mnemonic ∈
      [.blkSet, .blkInc, .payClr, .payPush, .frmBuild, .frmRd, .frmRewind]) := by
  cases i with
  | payPush =>
    obtain ⟨_, rfl⟩ := h
    simp [Instr.line, pushed]
  | frmBuild =>
    obtain ⟨_, _, _, rfl⟩ := h
    simp [Instr.line, built]
  | frmRd | frmPeek =>
    obtain ⟨hv, _, _, _, rfl⟩ := h
    simp [Instr.line, hv]
  | _ =>
    obtain rfl := h
    simp +contextual [Instr.line]

/-- Settles O53: a frozen command and a raised fault write none of the six items; an effect as its rule says. -/
theorem eachItemHasItsWriters : Obligations.EachItemHasItsWriters := by
  intro i s t h
  rcases exec_cases h with ⟨_, rfl⟩ | ⟨_, heffect⟩ | ⟨_, c, _, rfl⟩
  · simp +contextual
  · exact effect_writers heffect
  · simp +contextual

/-- R124: a command that writes `BLK` is `BLK.INC` or `BLK.SET`. -/
theorem effect_blk_writers {i : Instr} {s t : State} (h : Effect i s t) (hne : t.engine.blk ≠ s.engine.blk) :
    i = .blkInc ∨ ∃ b, i = .blkSet b := by
  cases i with
  | blkInc => exact .inl rfl
  | blkSet b => exact .inr ⟨b, rfl⟩
  | payPush =>
    obtain ⟨_, rfl⟩ := h
    exact absurd rfl hne
  | frmBuild =>
    obtain ⟨_, _, _, rfl⟩ := h
    exact absurd rfl hne
  | frmRd | frmPeek =>
    obtain ⟨_, _, _, _, rfl⟩ := h
    exact absurd rfl hne
  | _ =>
    obtain rfl := h
    exact absurd rfl hne

/-- Settles O35: of all that a step can do, only a reset and the effect of the two commands write `BLK`. -/
theorem blockNumberIsKept : Obligations.BlockNumberIsKept := by
  intro s t hstep hne
  rcases step_cases hstep with
    ⟨_, rfl⟩ | ⟨rest, hin, _⟩ | ⟨w, rest, i, hin, hdec, hexec⟩ | ⟨_, _, _, _, _, hillegal⟩
  · exact absurd rfl hne
  · exact .inl ⟨rest, hin⟩
  · refine .inr ⟨w, rest, hin, ?_⟩
    rw [hdec]
    rcases exec_cases hexec with ⟨_, rfl⟩ | ⟨_, heffect⟩ | ⟨_, _, _, rfl⟩
    · exact absurd rfl hne
    · rcases effect_blk_writers heffect hne with rfl | ⟨b, rfl⟩
      · exact .inl rfl
      · exact .inr ⟨b, rfl⟩
    · exact absurd rfl hne
  · rcases takeIllegal_cases hillegal with ⟨_, rfl⟩ | ⟨_, rfl⟩
    · exact absurd rfl hne
    · exact absurd rfl hne

end Sys2Proof.Machine
end

section
/-! The properties of a frame (42_framer R132). -/

namespace Sys2Proof.Machine

/-- R132 (e): a byte and its complement. -/
theorem complement_byte (b : Byte) :
    0xFF#8 - b = ~~~b ∧ b + (0xFF#8 - b) = 0xFF#8 ∧ b ^^^ (0xFF#8 - b) = 0xFF#8 := by
  have hnot : 0xFF#8 - b = ~~~b := BitVec.allOnes_sub_eq_not b
  refine ⟨hnot, by rw [hnot]; exact BitVec.add_not_self b, ?_⟩
  rw [hnot, BitVec.not_def, BitVec.xor_comm b, BitVec.xor_assoc, BitVec.xor_self, BitVec.xor_zero]
  rfl

/-- R88, R130: pad bytes at the end of a chunk do not show in the padded payload. -/
theorem pad_append_replicate {l : List Byte} {k : Nat} (h : l.length + k ≤ 128) :
    pad (l ++ List.replicate k 0x1A#8) = pad l := by
  have hcount : k + (Config.payloadLen - (l ++ List.replicate k 0x1A#8).length) = Config.payloadLen - l.length := by
    simp [Config.payloadLen]
    omega
  rw [pad, List.append_assoc, pad, ← hcount, ← List.replicate_append_replicate]
  rfl

/-- Settles O44: the complement of a byte, the parts of a frame, the pad, and the residue of the CRC. -/
theorem frameProperties : Obligations.FrameProperties := by
  refine ⟨complement_byte, fun b b' l _ _ => ⟨rfl, rfl, fun k hk => ?_, crcResidueIsZero (pad l)⟩⟩
  rw [frameOf_eq, frameOf_eq, pad_append_replicate hk]

end Sys2Proof.Machine
end

section
/-! Runs of the command lists of 30_encoding R79 (40_crc R109, 41_blocknum R120, 42_framer R141). -/

namespace Sys2Proof.Machine

/-- R60, R61: a run that starts with a given command executes it and goes on from there. -/
theorem runSteps_of_given {i : Instr} {s : State} {e : Engine} {r : Option Word} {rest : List PortEvent}
    (hin : s.inbox = .cmd (encode i) :: rest)
    (hexec : exec i { s with inbox := rest } = .next (after { s with inbox := rest } e r)) (k : Nat) :
    runSteps (k + 1) s = runSteps k { engine := e, inbox := rest, resp := r } :=
  runSteps_succ ((step_of_legal hin (decode_encode i)).trans hexec) k

/-- R70: a list of commands is given as the words of its parts. -/
theorem given_append (k l : List Instr) : given (k ++ l) = given k ++ given l := List.map_append

/-! ### CRC16 L -/

/-- R109: one `CRC.BYTE` per byte folds the list into the register. -/
theorem runSteps_crcBytes (l : List Byte) {s : State} {rest : List PortEvent} (hf : s.engine.fault = .none)
    (hin : s.inbox = given (l.map .crcByte) ++ rest) :
    ∃ r, runSteps l.length s =
      .next { engine := { s.engine with crc := crcFold s.engine.crc l }, inbox := rest, resp := r } := by
  induction l generalizing s with
  | nil =>
    obtain rfl : s.inbox = rest := hin
    exact ⟨s.resp, rfl⟩
  | cons b l ih =>
    have hexec := exec_crcByte_of_running (s := { s with inbox := given (l.map .crcByte) ++ rest }) hf b
    obtain ⟨r, hr⟩ := ih (s := ⟨{ s.engine with crc := crcByte s.engine.crc b }, _, none⟩) hf rfl
    exact ⟨r, (runSteps_of_given hin hexec l.length).trans (hr.trans (by rw [crcFold_cons]))⟩

/-- Settles O30: the register is cleared, the bytes are folded in, and the register is read. -/
theorem crcCommandsComputeCrc16 : Obligations.CrcCommandsComputeCrc16 := by
  intro l s rest hf hin
  have hclr : s.inbox = .cmd (encode .crcClr) :: (given (l.map .crcByte) ++ .cmd (encode .crcRd) :: rest) := by
    rw [hin, crc16Commands, given_append]
    simp [given]
  rw [runSteps_of_given hclr (exec_crcClr_of_running hf)]
  obtain ⟨r, hr⟩ := runSteps_crcBytes l (s := ⟨{ s.engine with crc := 0x0000#16 }, _, none⟩) hf rfl
  have hread := exec_crcRd_of_running (s := ⟨{ s.engine with crc := crc16 l }, rest, r⟩) hf
  exact (runSteps_add hr 1).trans (runSteps_of_given rfl hread 0)

/-! ### The block number -/

/-- R120, R122: `k` increments add `k`, modulo 256. -/
theorem runSteps_blkIncs (k : Nat) {s : State} {rest : List PortEvent} (hf : s.engine.fault = .none)
    (hin : s.inbox = given (List.replicate k .blkInc) ++ rest) :
    ∃ t, runSteps k s = .next t ∧ t.inbox = rest ∧ t.engine.blk.toNat = (s.engine.blk.toNat + k) % 256 := by
  induction k generalizing s with
  | zero => exact ⟨s, rfl, hin, (Nat.mod_eq_of_lt s.engine.blk.isLt).symm⟩
  | succ k ih =>
    have hexec := exec_blkInc_of_running (s := { s with inbox := given (List.replicate k .blkInc) ++ rest }) hf
    obtain ⟨t, hrun, hrest, hblk⟩ :=
      ih (s := ⟨{ s.engine with blk := s.engine.blk + 1#8, fvalid := false, rdptr := 0#8 }, _, none⟩) hf rfl
    refine ⟨t, (runSteps_of_given hin hexec k).trans hrun, hrest, hblk.trans ?_⟩
    have hnext : (s.engine.blk + 1#8).toNat = (s.engine.blk.toNat + 1) % 256 := BitVec.toNat_add ..
    simp only [hnext]
    omega

/-- Settles O34: the increments count up from 1. -/
theorem nthBlockCarriesNModulo256 : Obligations.NthBlockCarriesNModulo256 := by
  intro k s rest hf hone hin
  obtain ⟨t, hrun, hrest, hblk⟩ := runSteps_blkIncs k hf hin
  refine ⟨t, hrun, hrest, hblk.trans ?_⟩
  rw [hone, Nat.add_comm]
  rfl

/-! ### LOAD L and FRM.BUILD -/

/-- R134, R141: one `PAY.PUSH` per byte appends the list to the chunk, while it fits. -/
theorem runSteps_payPushes (l : List Byte) {chunk : List Byte} {s : State} {rest : List PortEvent}
    (hf : s.engine.fault = .none) (hchunk : readChunk s.engine = .ok chunk) (hlen : chunk.length + l.length ≤ 128)
    (hin : s.inbox = given (l.map .payPush) ++ rest) :
    ∃ t, runSteps l.length s = .next t ∧ t.inbox = rest ∧ t.engine.fault = .none ∧
      t.engine.blk = s.engine.blk ∧ readChunk t.engine = .ok (chunk ++ l) := by
  induction l generalizing chunk s with
  | nil => exact ⟨s, rfl, hin, hf, rfl, by rw [hchunk, List.append_nil]⟩
  | cons b l ih =>
    rw [List.length_cons] at hlen
    have hlt : s.engine.fill.toNat < 128 := by
      rw [readChunk_fill hchunk]
      omega
    have hexec := exec_payPush_of_lt (s := { s with inbox := given (l.map .payPush) ++ rest }) hf hlt b
    have hpushed := readChunk_pushed hchunk hlt b
    obtain ⟨t, hrun, hrest, hfault, hblk, hall⟩ := ih (s := ⟨pushed s.engine b, _, none⟩) hf hpushed
      (by rw [List.length_append, List.length_singleton]; omega) rfl
    exact ⟨t, (runSteps_of_given hin hexec l.length).trans hrun, hrest, hfault, hblk, by rw [hall]; simp⟩

/-- Settles O46: the chunk is emptied, the bytes are pushed, and the frame of the chunk is built. -/
theorem loadAndBuildComputeFrame : Obligations.LoadAndBuildComputeFrame := by
  intro l s rest hpos hlen hf hin
  have hclr : s.inbox = .cmd (encode .payClr) :: (given (l.map .payPush) ++ .cmd (encode .frmBuild) :: rest) := by
    rw [hin, loadCommands, given_append]
    simp [given]
  rw [runSteps_of_given hclr (exec_payClr_of_running hf)]
  obtain ⟨t, hrun, hrest, hfault, hblk, hchunk⟩ :=
    runSteps_payPushes l (s := ⟨{ s.engine with fill := 0#8, fvalid := false, rdptr := 0#8 }, _, none⟩) hf
      (readChunk_of_empty rfl) (by simpa using hlen) rfl
  rw [List.nil_append] at hchunk
  have hfilled := readChunk_fill hchunk
  have hfill : t.engine.fill ≠ 0#8 := by
    intro hz
    rw [hz, BitVec.toNat_zero] at hfilled
    omega
  have hbuild := exec_frmBuild_of_chunk (s := { t with inbox := rest }) hfault hfill hchunk
  refine ⟨_, (runSteps_add hrun 1).trans (runSteps_of_given hrest hbuild 0), rfl, hfault, rfl, rfl, hfilled, hblk,
    rfl, fun i hi => ?_⟩
  exact (readFrame_built t.engine hlen hi).trans (by rw [hblk])

/-! ### SEND -/

/-- R137, R141: `k` reads move the pointer by `k`, while it stays inside the frame. -/
theorem runSteps_frmRds (k : Nat) {s : State} {rest : List PortEvent} (hf : s.engine.fault = .none)
    (hv : s.engine.fvalid = true) (hframe : ∀ i, i < 133 → ∃ b, readFrame s.engine i = .ok b)
    (hk : s.engine.rdptr.toNat + k ≤ 133) (hin : s.inbox = given (List.replicate k .frmRd) ++ rest) :
    ∃ (p : Byte) (r : Option Word), p.toNat = s.engine.rdptr.toNat + k ∧
      runSteps k s = .next { engine := { s.engine with rdptr := p }, inbox := rest, resp := r } := by
  induction k generalizing s with
  | zero =>
    obtain rfl : s.inbox = rest := hin
    exact ⟨s.engine.rdptr, s.resp, rfl, rfl⟩
  | succ k ih =>
    obtain ⟨b, hb⟩ := hframe s.engine.rdptr.toNat (by omega)
    have hexec := exec_frmRd_of_byte (s := { s with inbox := given (List.replicate k .frmRd) ++ rest }) hf hv hb
    have hnext := rdptr_succ_toNat (readFrame_cases hb).1
    obtain ⟨p, r, hp, hrun⟩ :=
      ih (s := ⟨{ s.engine with rdptr := s.engine.rdptr + 1#8 }, _, some (b.setWidth 16)⟩) hf hv hframe
        (by simp only [hnext]; omega) rfl
    refine ⟨p, r, ?_, (runSteps_of_given hin hexec k).trans hrun⟩
    rw [hp, hnext, Nat.add_right_comm]
    rfl

/-- Settles O47: the first `n` reads bring the pointer to `n`, and the last one responds the byte there. -/
theorem frameIsReadInOrder : Obligations.FrameIsReadInOrder := by
  intro s f n rest hf hv hstart hframe hn hin
  have hsplit : s.inbox = given (List.replicate n .frmRd) ++ .cmd (encode .frmRd) :: rest := by
    rw [hin, List.replicate_succ', given_append]
    simp [given]
  have hzero : s.engine.rdptr.toNat = 0 := by rw [hstart]; rfl
  obtain ⟨p, r, hp, hrun⟩ :=
    runSteps_frmRds n hf hv (fun i hi => ⟨_, hframe i hi⟩) (by omega) hsplit
  rw [hzero, Nat.zero_add] at hp
  have hnext : (p + 1#8).toNat = n + 1 := by rw [rdptr_succ_toNat (by omega), hp]
  have hbyte : readFrame s.engine p.toNat = .ok (f.getD n 0#8) := by
    rw [hp]
    exact hframe n hn
  have hread := exec_frmRd_of_byte (s := ⟨{ s.engine with rdptr := p }, rest, r⟩) hf hv hbyte
  exact ⟨p + 1#8, hnext, (runSteps_add hrun 1).trans (runSteps_of_given rfl hread 0)⟩

end Sys2Proof.Machine
end
